-- ==== Sys2Proof/Word.lean ====
section
/-! DEFINITION. The word types of CORE (00_scope.md R8, R9, R10): bytes, 16-bit words, 12-bit
address operands, register indices. All values are unsigned. -/

namespace Sys2Proof

/-- An 8-bit value: a general register, a timer, a memory byte (R8). -/
abbrev Byte := BitVec 8

/-- A 16-bit value: an opcode, I, PC, a return address (R8). -/
abbrev Word := BitVec 16

/-- The 12-bit address operand `nnn` (R55). -/
abbrev Addr12 := BitVec 12

/-- A register index: a 4-bit field, so every index 0 to 15 is valid (R21). -/
abbrev Reg := Fin 16

/-- A 4-bit field of an opcode that is no register index (R55). -/
abbrev Nibble := Fin 16

/-- A nibble as four bits. -/
abbrev nibbleBits (n : Fin 16) : BitVec 4 := BitVec.ofFin n

end Sys2Proof
end

