-- ==== Sys2Proof/Syntax.lean ====
section
/-! DEFINITION. The 35 instructions (30_encoding.md R59), one constructor per row of
spec/opcode_table.json, in the table's order. Each carries the operand fields of its format (R56,
R67), so that no bit of a word is lost: the low nibble that bands 5 and 9 ignore (R64) and the y
that SHR and SHL encode but do not read (R66, R130) are fields too (DEDUCED, log 12: safe). -/

namespace Sys2Proof

/-- An instruction descriptor (R67). -/
inductive Instr where
  /-- 00E0, R191 -/
  | cls
  /-- 00EE, R84 -/
  | ret
  /-- 0nnn but for the two above, R81 -/
  | sys (nnn : Addr12)
  /-- 1nnn, R82 -/
  | jp (nnn : Addr12)
  /-- 2nnn, R83 -/
  | call (nnn : Addr12)
  /-- 3xkk, R101 -/
  | seImm (x : Reg) (kk : Byte)
  /-- 4xkk, R102 -/
  | sneImm (x : Reg) (kk : Byte)
  /-- 5xyN, N ignored, R103 -/
  | seReg (x y : Reg) (ignored : Nibble)
  /-- 6xkk, R122 -/
  | ldImm (x : Reg) (kk : Byte)
  /-- 7xkk, R123 -/
  | addImm (x : Reg) (kk : Byte)
  /-- 8xy0, R124 -/
  | ldReg (x y : Reg)
  /-- 8xy1, R125 -/
  | orReg (x y : Reg)
  /-- 8xy2, R126 -/
  | andReg (x y : Reg)
  /-- 8xy3, R127 -/
  | xorReg (x y : Reg)
  /-- 8xy4, R128 -/
  | addReg (x y : Reg)
  /-- 8xy5, R129 -/
  | subReg (x y : Reg)
  /-- 8xy6, y encoded and not read, R130 -/
  | shr (x y : Reg)
  /-- 8xy7, R131 -/
  | subnReg (x y : Reg)
  /-- 8xyE, y encoded and not read, R132 -/
  | shl (x y : Reg)
  /-- 9xyN, N ignored, R104 -/
  | sneReg (x y : Reg) (ignored : Nibble)
  /-- Annn, R151 -/
  | ldI (nnn : Addr12)
  /-- Bnnn, R85 -/
  | jpV0 (nnn : Addr12)
  /-- Cxkk, R133 -/
  | rnd (x : Reg) (kk : Byte)
  /-- Dxyn, R192 -/
  | drw (x y : Reg) (n : Nibble)
  /-- Ex9E, R105 -/
  | skp (x : Reg)
  /-- ExA1, R106 -/
  | sknp (x : Reg)
  /-- Fx07, R171 -/
  | ldVxDt (x : Reg)
  /-- Fx0A, R174 -/
  | ldVxKey (x : Reg)
  /-- Fx15, R172 -/
  | ldDtVx (x : Reg)
  /-- Fx18, R173 -/
  | ldStVx (x : Reg)
  /-- Fx1E, R152 -/
  | addI (x : Reg)
  /-- Fx29, R153 -/
  | ldFont (x : Reg)
  /-- Fx33, R154 -/
  | ldBcd (x : Reg)
  /-- Fx55, R155 -/
  | storeRegs (x : Reg)
  /-- Fx65, R156 -/
  | loadRegs (x : Reg)
  deriving DecidableEq, Repr

end Sys2Proof
end

