-- ==== Sys2Proof/Decode.lean ====
section
/-! DEFINITION. The decoder (30_encoding.md R58 to R64), total and pure, and the encoder written
from the same opcode map (R56, R59). -/

namespace Sys2Proof

/-! ### Fields (R55) -/

/-- op[15:12], the band. -/
def bandOf (op : Word) : Nat := (op.extractLsb' 12 4).toNat

/-- x = op[11:8]. -/
def fieldX (op : Word) : Reg := (op.extractLsb' 8 4).toFin

/-- y = op[7:4]. -/
def fieldY (op : Word) : Reg := (op.extractLsb' 4 4).toFin

/-- n = op[3:0]. -/
def fieldN (op : Word) : Nibble := (op.extractLsb' 0 4).toFin

/-- kk = op[7:0]. -/
def fieldKK (op : Word) : Byte := op.extractLsb' 0 8

/-- nnn = op[11:0]. -/
def fieldNNN (op : Word) : Addr12 := op.extractLsb' 0 12

/-! ### The decoder -/

/-- The decoder's answer: a descriptor, or Invalid with the opcode (R58, C5). -/
inductive Decoded where
  | instr (i : Instr)
  | invalid (op : Word)
  deriving DecidableEq, Repr

/-- Band 0x0 (R60): never Invalid. -/
def decodeBand0 (op : Word) : Decoded :=
  if op = 0x00E0 then .instr .cls
  else if op = 0x00EE then .instr .ret
  else .instr (.sys (fieldNNN op))

/-- Band 0x8 dispatches on the trailing nibble (R61). -/
def decodeBand8 (op : Word) : Decoded :=
  let x := fieldX op
  let y := fieldY op
  match (fieldN op).val with
  | 0x0 => .instr (.ldReg x y)
  | 0x1 => .instr (.orReg x y)
  | 0x2 => .instr (.andReg x y)
  | 0x3 => .instr (.xorReg x y)
  | 0x4 => .instr (.addReg x y)
  | 0x5 => .instr (.subReg x y)
  | 0x6 => .instr (.shr x y)
  | 0x7 => .instr (.subnReg x y)
  | 0xE => .instr (.shl x y)
  | _ => .invalid op

/-- Band 0xE dispatches on the trailing byte (R62). -/
def decodeBandE (op : Word) : Decoded :=
  match (fieldKK op).toNat with
  | 0x9E => .instr (.skp (fieldX op))
  | 0xA1 => .instr (.sknp (fieldX op))
  | _ => .invalid op

/-- Band 0xF dispatches on the trailing byte (R63). -/
def decodeBandF (op : Word) : Decoded :=
  let x := fieldX op
  match (fieldKK op).toNat with
  | 0x07 => .instr (.ldVxDt x)
  | 0x0A => .instr (.ldVxKey x)
  | 0x15 => .instr (.ldDtVx x)
  | 0x18 => .instr (.ldStVx x)
  | 0x1E => .instr (.addI x)
  | 0x29 => .instr (.ldFont x)
  | 0x33 => .instr (.ldBcd x)
  | 0x55 => .instr (.storeRegs x)
  | 0x65 => .instr (.loadRegs x)
  | _ => .invalid op

/-- The decoder (R58, R59): dispatch on the leading nibble. -/
def decode (op : Word) : Decoded :=
  match bandOf op with
  | 0x0 => decodeBand0 op
  | 0x1 => .instr (.jp (fieldNNN op))
  | 0x2 => .instr (.call (fieldNNN op))
  | 0x3 => .instr (.seImm (fieldX op) (fieldKK op))
  | 0x4 => .instr (.sneImm (fieldX op) (fieldKK op))
  | 0x5 => .instr (.seReg (fieldX op) (fieldY op) (fieldN op))
  | 0x6 => .instr (.ldImm (fieldX op) (fieldKK op))
  | 0x7 => .instr (.addImm (fieldX op) (fieldKK op))
  | 0x8 => decodeBand8 op
  | 0x9 => .instr (.sneReg (fieldX op) (fieldY op) (fieldN op))
  | 0xA => .instr (.ldI (fieldNNN op))
  | 0xB => .instr (.jpV0 (fieldNNN op))
  | 0xC => .instr (.rnd (fieldX op) (fieldKK op))
  | 0xD => .instr (.drw (fieldX op) (fieldY op) (fieldN op))
  | 0xE => decodeBandE op
  | 0xF => decodeBandF op
  | _ => .invalid op  -- no value of a four-bit field

/-! ### The encoder, from the formats of R56 -/

/-- Format NNN: `oooo nnnn nnnn nnnn`. -/
def encNNN (band : BitVec 4) (nnn : Addr12) : Word := band ++ nnn

/-- Format XKK: `oooo xxxx kkkk kkkk`; format XS with the sub-opcode byte as kk. -/
def encXKK (band : BitVec 4) (x : Reg) (kk : Byte) : Word := band ++ (nibbleBits x ++ kk)

/-- Formats XY and XYN: `oooo xxxx yyyy ssss`. -/
def encXYN (band : BitVec 4) (x y : Reg) (n : Nibble) : Word :=
  band ++ (nibbleBits x ++ (nibbleBits y ++ nibbleBits n))

/-- The word of an instruction (R56, R59). -/
def encode (i : Instr) : Word :=
  match i with
  | .cls => 0x00E0
  | .ret => 0x00EE
  | .sys nnn => encNNN 0x0 nnn
  | .jp nnn => encNNN 0x1 nnn
  | .call nnn => encNNN 0x2 nnn
  | .seImm x kk => encXKK 0x3 x kk
  | .sneImm x kk => encXKK 0x4 x kk
  | .seReg x y n => encXYN 0x5 x y n
  | .ldImm x kk => encXKK 0x6 x kk
  | .addImm x kk => encXKK 0x7 x kk
  | .ldReg x y => encXYN 0x8 x y 0x0
  | .orReg x y => encXYN 0x8 x y 0x1
  | .andReg x y => encXYN 0x8 x y 0x2
  | .xorReg x y => encXYN 0x8 x y 0x3
  | .addReg x y => encXYN 0x8 x y 0x4
  | .subReg x y => encXYN 0x8 x y 0x5
  | .shr x y => encXYN 0x8 x y 0x6
  | .subnReg x y => encXYN 0x8 x y 0x7
  | .shl x y => encXYN 0x8 x y 0xE
  | .sneReg x y n => encXYN 0x9 x y n
  | .ldI nnn => encNNN 0xA nnn
  | .jpV0 nnn => encNNN 0xB nnn
  | .rnd x kk => encXKK 0xC x kk
  | .drw x y n => encXYN 0xD x y n
  | .skp x => encXKK 0xE x 0x9E
  | .sknp x => encXKK 0xE x 0xA1
  | .ldVxDt x => encXKK 0xF x 0x07
  | .ldVxKey x => encXKK 0xF x 0x0A
  | .ldDtVx x => encXKK 0xF x 0x15
  | .ldStVx x => encXKK 0xF x 0x18
  | .addI x => encXKK 0xF x 0x1E
  | .ldFont x => encXKK 0xF x 0x29
  | .ldBcd x => encXKK 0xF x 0x33
  | .storeRegs x => encXKK 0xF x 0x55
  | .loadRegs x => encXKK 0xF x 0x65

/-! ### The descriptor, which is also the assembler's form (R66, R67) -/

/-- The symbolic pseudo-registers. -/
inductive Pseudo where
  | i
  | dt
  | st
  /-- the font pointer -/
  | font
  /-- the BCD pointer -/
  | bcd
  /-- indirect memory via I -/
  | indirect
  /-- the key of Fx0A -/
  | key
  deriving DecidableEq, Repr

/-- The assembler's spelling of a pseudo-register. -/
def Pseudo.spelling (p : Pseudo) : String :=
  match p with
  | .i => "I"
  | .dt => "DT"
  | .st => "ST"
  | .font => "F"
  | .bcd => "B"
  | .indirect => "[I]"
  | .key => "K"

/-- An operand reference. -/
inductive OperandRef where
  | reg (x : Reg)
  | pseudo (p : Pseudo)
  deriving DecidableEq, Repr

/-- An attached literal, tagged by its width: "8-bit or 12-bit" (R67, 00_scope.md R13). DESIGN CHOICE
(log 16): the spec does not say which tag the 4-bit n of Dxyn (R55) takes; it gets a third, `height`. -/
inductive Literal where
  | byte (kk : Byte)
  | address (nnn : Addr12)
  /-- the sprite height of Dxyn, four bits (log 16) -/
  | height (n : Nibble)
  deriving DecidableEq, Repr

/-- "an opcode category, zero–two operand references …, and an attached literal": the mnemonic, the
references destination first, and the literal. -/
structure Descriptor where
  mnemonic : String
  operands : List OperandRef
  literal  : Option Literal
  deriving DecidableEq, Repr

/-- The descriptor of an instruction, in its assembler form (R59, R66). SHR and SHL take their second
spelling, with y; N of 5xyN and 9xyN is ignored and has no place in the form. -/
def Instr.descriptor (i : Instr) : Descriptor :=
  match i with
  | .cls => ⟨"CLS", [], none⟩
  | .ret => ⟨"RET", [], none⟩
  | .sys nnn => ⟨"SYS", [], some (.address nnn)⟩
  | .jp nnn => ⟨"JP", [], some (.address nnn)⟩
  | .call nnn => ⟨"CALL", [], some (.address nnn)⟩
  | .seImm x kk => ⟨"SE", [.reg x], some (.byte kk)⟩
  | .sneImm x kk => ⟨"SNE", [.reg x], some (.byte kk)⟩
  | .seReg x y _ => ⟨"SE", [.reg x, .reg y], none⟩
  | .ldImm x kk => ⟨"LD", [.reg x], some (.byte kk)⟩
  | .addImm x kk => ⟨"ADD", [.reg x], some (.byte kk)⟩
  | .ldReg x y => ⟨"LD", [.reg x, .reg y], none⟩
  | .orReg x y => ⟨"OR", [.reg x, .reg y], none⟩
  | .andReg x y => ⟨"AND", [.reg x, .reg y], none⟩
  | .xorReg x y => ⟨"XOR", [.reg x, .reg y], none⟩
  | .addReg x y => ⟨"ADD", [.reg x, .reg y], none⟩
  | .subReg x y => ⟨"SUB", [.reg x, .reg y], none⟩
  | .shr x y => ⟨"SHR", [.reg x, .reg y], none⟩
  | .subnReg x y => ⟨"SUBN", [.reg x, .reg y], none⟩
  | .shl x y => ⟨"SHL", [.reg x, .reg y], none⟩
  | .sneReg x y _ => ⟨"SNE", [.reg x, .reg y], none⟩
  | .ldI nnn => ⟨"LD", [.pseudo .i], some (.address nnn)⟩
  | .jpV0 nnn => ⟨"JP", [.reg 0], some (.address nnn)⟩
  | .rnd x kk => ⟨"RND", [.reg x], some (.byte kk)⟩
  | .drw x y n => ⟨"DRW", [.reg x, .reg y], some (.height n)⟩
  | .skp x => ⟨"SKP", [.reg x], none⟩
  | .sknp x => ⟨"SKNP", [.reg x], none⟩
  | .ldVxDt x => ⟨"LD", [.reg x, .pseudo .dt], none⟩
  | .ldVxKey x => ⟨"LD", [.reg x, .pseudo .key], none⟩
  | .ldDtVx x => ⟨"LD", [.pseudo .dt, .reg x], none⟩
  | .ldStVx x => ⟨"LD", [.pseudo .st, .reg x], none⟩
  | .addI x => ⟨"ADD", [.pseudo .i, .reg x], none⟩
  | .ldFont x => ⟨"LD", [.pseudo .font, .reg x], none⟩
  | .ldBcd x => ⟨"LD", [.pseudo .bcd, .reg x], none⟩
  | .storeRegs x => ⟨"LD", [.pseudo .indirect, .reg x], none⟩
  | .loadRegs x => ⟨"LD", [.reg x, .pseudo .indirect], none⟩

/-! ### Bytes (20_memory.md R38: big-endian, two bytes) -/

/-- The opcode formed by two consecutive bytes, the first in bits 15 to 8. -/
def opcodeOfBytes (first second : Byte) : Word := first ++ second

/-- The byte of an opcode that lies at the lower address. -/
def firstByte (op : Word) : Byte := op.extractLsb' 8 8

/-- The byte of an opcode that lies at the higher address. -/
def secondByte (op : Word) : Byte := op.extractLsb' 0 8

/-- Why a string of bytes holds no instruction: the word is Invalid (R58), or fewer than two bytes
are left (every instruction is exactly two, R65). -/
inductive DecodeError where
  | invalidWord (op : Word)
  | truncated
  deriving DecidableEq, Repr

/-- Decode the instruction at the head of a string of bytes, with the bytes that follow it. -/
def decodeBytes : List Byte → Except DecodeError (Instr × List Byte)
  | first :: second :: rest =>
    match decode (opcodeOfBytes first second) with
    | .instr i => .ok (i, rest)
    | .invalid op => .error (.invalidWord op)
  | [_] => .error .truncated
  | [] => .error .truncated

/-- The two bytes of an instruction, as they lie in memory. -/
def encodeBytes (i : Instr) : List Byte := [firstByte (encode i), secondByte (encode i)]

/-- The opcode the opcode table numbers `w` in `nbits` bits; every bit above `nbits` is 0. -/
def tableWord (nbits w : Nat) : Word := BitVec.ofNat 16 (w % 2 ^ nbits)

/-- The instruction the decoder reads from a table word laid out as the hardware stores it. -/
def decodeTableWord (nbits w : Nat) : Option Instr :=
  match decodeBytes [firstByte (tableWord nbits w), secondByte (tableWord nbits w)] with
  | .ok (i, _) => some i
  | .error _ => none

end Sys2Proof
end

