-- ==== Sys2Proof/Config.lean ====
section
/-! DEFINITION. What this hardware fixes (00_scope.md R8) and the one free value (R32, R133). -/

namespace Sys2Proof.Config

/-- MEM_SIZE: addresses 0x000 to 0xFFF (R8, 20_memory.md R35). -/
abbrev memSize : Nat := 4096

/-- PROGRAM_BASE, the entry point (R8). -/
abbrev programBase : Nat := 0x200

/-- MAX_PROGRAM_LEN = 4096 − 0x200 (R8). -/
abbrev maxProgramLen : Nat := 3584

/-- FONT_BASE (R8, D13). -/
abbrev fontBase : Nat := 0x050

/-- FONT_GLYPH_BYTES (R8). -/
abbrev fontGlyphBytes : Nat := 5

/-- STACK_DEPTH (R8). -/
abbrev stackDepth : Nat := 16

/-- SHIFT_READS_VY: false on this hardware (R8, D3). -/
abbrev shiftReadsVy : Bool := false

/-- FONT_INDEX_LOW_NIBBLE: false on this hardware (R8, D9). -/
abbrev fontIndexLowNibble : Bool := false

/-- RAND: the bytes `RandomByte()` yields, the n-th draw at argument n. A FREE VALUE: the spec
takes each byte as "a free 8-bit input of the tick, under no law" (43_alu.md R133, D2).
DESIGN CHOICE (log 4): safe, since a claim holds for every sequence. -/
opaque randomByte : Nat → Byte

end Sys2Proof.Config
end

