-- ==== Sys2Proof/Machine/State.lean ====
section
/-! DEFINITION. The complete state of CORE (10_state.md R20) as plain data, its reset
(70_reset_and_hazards.md R240), and the reasons a step can stop. -/

namespace Sys2Proof.Machine

/-- The fault kinds (60_exceptions.md R211 to R215, R217, R229). -/
inductive FaultKind where
  /-- R211 -/
  | decodeFailure
  /-- R212 -/
  | fetchBounds
  /-- R215 -/
  | memoryBounds
  /-- R213 -/
  | stackOverflow
  /-- R214 -/
  | stackUnderflow
  /-- R217 -/
  | keyIndex
  /-- R229: at construction only, so it never stands in FAULT -/
  | loadOversize
  deriving DecidableEq, Repr

/-- The fault record (R216). Its code is `FaultKind.code` of the kind. -/
structure FaultRecord where
  kind  : FaultKind
  /-- the opcode, absent for FetchBounds -/
  op    : Option Word
  /-- the address the opcode was fetched from -/
  pc0   : Word
  /-- the offending address for MemoryBounds, the offending V[x] for KeyIndex, else absent -/
  extra : Option Nat
  deriving DecidableEq, Repr

/-- Memory as the sorted list of the bytes that differ from the construction contents (log 8). -/
abbrev Memory := List Host.Cell

/-- The keypad, 16 lines, true = pressed (R34). -/
abbrev Keypad := Vector Bool 16

/-- The framebuffer, 32 rows of 64 one-bit pixels (R33). -/
abbrev Framebuffer := Vector (Vector Bool 64) 32

/-- A keypad with no key pressed. -/
def Keypad.released : Keypad := Vector.replicate 16 false

/-- A framebuffer with every pixel off. -/
def Framebuffer.blank : Framebuffer := Vector.replicate 32 (Vector.replicate 64 false)

/-- The state of CORE: R20's list, the fb_written output (R225), and the model's own two inputs. -/
structure State where
  /-- V0 to VF (R21); VF is also the flag (R22) -/
  v         : Vector Byte 16
  /-- I (R24) -/
  i         : Word
  /-- PC (R25) -/
  pc        : Word
  /-- SP, the next-free-slot index, legal values 0 to 16 (R26, R29) -/
  sp        : Byte
  /-- STACK[0..15] (R26) -/
  stack     : Vector Word 16
  /-- DT (R27) -/
  dt        : Byte
  /-- ST (R27, R28) -/
  st        : Byte
  /-- WAIT: none, or the register a key is awaited for (R30) -/
  wait      : Option Reg
  /-- FAULT: none, or the fault that ended the session (R31) -/
  fault     : Option FaultRecord
  /-- MEM (R35) -/
  mem       : Memory
  /-- FB (R33) -/
  fb        : Framebuffer
  /-- KEY as the tick samples it (R34, R227) -/
  keys      : Keypad
  /-- fb_written: the last tick executed 00E0 or Dxyn (R225) -/
  fbWritten : Bool
  /-- the model's own: how many random bytes have been drawn (R133; log 4) -/
  draws     : Nat
  /-- the model's own: what the host drives on key[15:0] before each coming tick (R225; log 6) -/
  keyInput  : List Keypad
  deriving DecidableEq, Repr

/-- Why the machine stops. No fault of the spec stops a step: a faulting tick is a next state with
FAULT recorded (R218; log 1). -/
inductive Fault where
  /-- Raised by `construct` when the program is longer than 3584 bytes: no session starts (R229).
  Safe: the spec starts none either. -/
  | loadOversize
  /-- Raised by the meanings of CALL and RET when SP > 16, a value no instruction can produce
  (R29). DESIGN CHOICE (log 3): safe, no run reaches it. -/
  | illegalStackPointer
  deriving DecidableEq, Repr

/-- Why an instruction has no meaning. -/
inductive Refusal where
  /-- Raised by an arm of `exec` whose instruction has no meaning yet. Safe. -/
  | notModelled (mnemonic : String)
  deriving DecidableEq, Repr

/-- What an instruction or a step answers. -/
abbrev Result := Host.Outcome State Fault Refusal

/-- The machine right after construction with an empty program and no key pressed (R240, R243).
KEY, fb_written, draws and keyInput have no reset value in the spec: DESIGN CHOICE, logs 4 to 7. -/
def State.reset : State where
  v         := Vector.replicate 16 0
  i         := 0
  pc        := 0x200
  sp        := 0
  stack     := Vector.replicate 16 0
  dt        := 0
  st        := 0
  wait      := none
  fault     := none
  mem       := []
  fb        := Framebuffer.blank
  keys      := Keypad.released
  fbWritten := false
  draws     := 0
  keyInput  := []

end Sys2Proof.Machine
end

