-- ==== Sys2Proof/Machine/Ops.lean ====
section
/-! DEFINITION. The named operations over registers and memory, and raising a fault
(60_exceptions.md R218), which is this hardware's only exception. There is no return from one: R222. -/

namespace Sys2Proof.Machine

/-! ### Registers -/

/-- Read of V[x] (00_scope.md R11). -/
def State.readV (s : State) (x : Reg) : Byte := s.v[x]

/-- Write of V[x]; none is hardwired (10_state.md R21). -/
def State.writeV (s : State) (x : Reg) (b : Byte) : State := { s with v := s.v.set x b }

/-- Write of I (R24). -/
def State.writeI (s : State) (w : Word) : State := { s with i := w }

/-- Write of PC (R25). -/
def State.writePc (s : State) (w : Word) : State := { s with pc := w }

/-- Write of DT (R27). -/
def State.writeDt (s : State) (b : Byte) : State := { s with dt := b }

/-- Write of ST (R27). -/
def State.writeSt (s : State) (b : Byte) : State := { s with st := b }

/-- Write of WAIT (R30). -/
def State.writeWait (s : State) (w : Option Reg) : State := { s with wait := w }

/-- `skip()`: PC <- trunc_16(PC + 2) (42_skips.md R100). -/
def State.skip (s : State) : State := s.writePc (s.pc + 2)

/-- Skip when the condition holds, else leave PC (R100). -/
def State.skipIf (s : State) (c : Bool) : State := if c then s.skip else s

/-! ### The call stack (10_state.md R26) -/

/-- STACK[SP] <- PC, then SP <- SP + 1 (41_control_flow.md R83). -/
def State.pushPc (s : State) : State :=
  { s with stack := s.stack.setIfInBounds s.sp.toNat s.pc, sp := s.sp + 1 }

/-- SP <- SP − 1, then PC <- the entry there, `target` (R84). -/
def State.popPc (s : State) (target : Word) : State := { s with sp := s.sp - 1, pc := target }

/-- The entry a return reads, STACK[SP − 1]; none for an SP outside 1 to 16. -/
def State.returnAddress (s : State) : Option Word := s.stack[(s.sp - 1).toNat]?

/-! ### Memory (20_memory.md) -/

/-- FONT_TABLE, glyph by glyph (R41; its bytes are the spec's general knowledge, G2: log 11). -/
def fontTable : List Byte :=
  [0xF0, 0x90, 0x90, 0x90, 0xF0] ++ [0x20, 0x60, 0x20, 0x20, 0x70] ++
  [0xF0, 0x10, 0xF0, 0x80, 0xF0] ++ [0xF0, 0x10, 0xF0, 0x10, 0xF0] ++
  [0x90, 0x90, 0xF0, 0x10, 0x10] ++ [0xF0, 0x80, 0xF0, 0x10, 0xF0] ++
  [0xF0, 0x80, 0xF0, 0x90, 0xF0] ++ [0xF0, 0x10, 0x20, 0x40, 0x40] ++
  [0xF0, 0x90, 0xF0, 0x90, 0xF0] ++ [0xF0, 0x90, 0xF0, 0x10, 0xF0] ++
  [0xF0, 0x90, 0xF0, 0x90, 0x90] ++ [0xE0, 0x90, 0xE0, 0x90, 0xE0] ++
  [0xF0, 0x80, 0x80, 0x80, 0xF0] ++ [0xE0, 0x90, 0x90, 0x90, 0xE0] ++
  [0xF0, 0x80, 0xF0, 0x80, 0xF0] ++ [0xF0, 0x80, 0xF0, 0x80, 0x80]

/-- What an unlisted address reads as: the contents at construction without a program, the font
at 0x050 to 0x09F and zero elsewhere (R42, R50). -/
def Memory.initialByte (a : Nat) : Byte :=
  if Config.fontBase ≤ a then fontTable.getD (a - Config.fontBase) 0 else 0

/-- MEM[a]. Callers check `a < 4096` first (R37; log 8). -/
def Memory.byteAt (m : Memory) (a : Nat) : Byte :=
  match m with
  | [] => Memory.initialByte a
  | cell :: rest => if cell.1 = a then cell.2 else Memory.byteAt rest a

/-- The cell of `b` at `a` in front of `rest`, left out where an unlisted address reads the same. -/
def Memory.consCell (a : Nat) (b : Byte) (rest : Memory) : Memory :=
  if b = Memory.initialByte a then rest else (a, b) :: rest

/-- MEM[a] <- b, keeping the canonical form. Callers check `a < 4096` first (R37). -/
def Memory.put (m : Memory) (a : Nat) (b : Byte) : Memory :=
  match m with
  | [] => Memory.consCell a b []
  | cell :: rest =>
    if a < cell.1 then Memory.consCell a b (cell :: rest)
    else if a = cell.1 then Memory.consCell a b rest
    else cell :: Memory.put rest a b

/-- Every listed address is above `lo`, addresses rise, all lie below 4096, and no entry equals
what an unlisted address reads as. -/
def Memory.wfAbove (lo : Option Nat) (m : Memory) : Bool :=
  match m with
  | [] => true
  | cell :: rest =>
    lo.all (· < cell.1) && decide (cell.1 < Config.memSize) && cell.2 != Memory.initialByte cell.1
      && Memory.wfAbove (some cell.1) rest

/-- The canonical form of memory (log 8). -/
def Memory.wf (m : Memory) : Bool := Memory.wfAbove none m

/-- MemWrite of a run of bytes at `base`, `base + 1`, … in that order. -/
def Memory.putBytes (m : Memory) (base : Nat) (bytes : List Byte) : Memory :=
  match bytes with
  | [] => m
  | b :: rest => Memory.putBytes (Memory.put m base b) (base + 1) rest

/-- MemRead of `len` bytes from `base` on, the lowest address first. -/
def Memory.bytesFrom (m : Memory) (base len : Nat) : List Byte :=
  match len with
  | 0 => []
  | n + 1 => Memory.byteAt m base :: Memory.bytesFrom m (base + 1) n

/-- Store a run of bytes (44_index_memory.md R154, R155). -/
def State.storeBytes (s : State) (base : Nat) (bytes : List Byte) : State :=
  { s with mem := Memory.putBytes s.mem base bytes }

/-- V0, V1, … <- the given bytes, as many as there are (R156). -/
def State.writeFirstV (s : State) (bytes : List Byte) : State :=
  { s with v := bytes.zipIdx.foldl (fun v bk => v.setIfInBounds bk.2 bk.1) s.v }

/-! ### Raising a fault (60_exceptions.md R210 to R222) -/

/-- The numeric code of a kind (D15). -/
def FaultKind.code (k : FaultKind) : Nat :=
  match k with
  | .decodeFailure => 1
  | .fetchBounds => 2
  | .memoryBounds => 3
  | .stackOverflow => 4
  | .stackUnderflow => 5
  | .keyIndex => 6
  | .loadOversize => 7

/-- Record a fault: FAULT is set and PC is again the faulting instruction's address. Nothing else of
the tick has been written, because every check precedes the first write (R218, D16). -/
def State.takeFault (s : State) (r : FaultRecord) : State := { s with pc := r.pc0, fault := some r }

/-- Raise in step 3, where PC = pc0 + 2 (00_scope.md R12; DEDUCED: pc0 = PC − 2, log 2). -/
def raise (kind : FaultKind) (op : Word) (extra : Option Nat) (s : State) : Result :=
  .next (s.takeFault ⟨kind, some op, s.pc - 2, extra⟩)

/-- The lowest address of `base`, …, `base + len − 1` that is ≥ 4096, if there is one:
max(base, 4096) (R215, D26: exact integers, no wrap). -/
def firstOutOfRange (base len : Nat) : Option Nat :=
  if 0 < len ∧ Config.memSize ≤ base + len - 1 then some (max base Config.memSize) else none

/-- Check every address before anything is written (44_index_memory.md R150): MemoryBounds with the
lowest offending address (R215), else `done`. -/
def checkRange (op : Word) (base len : Nat) (s done : State) : Result :=
  match firstOutOfRange base len with
  | some a => raise .memoryBounds op (some a) s
  | none => .next done

end Sys2Proof.Machine
end

