-- ==== Sys2Proof/Machine/Operands.lean ====
section
/-! DEFINITION. The operand forms: immediates, addresses, the font pointer, decimal digits, the
shift's source, and the key lines (30_encoding.md R57; 42 to 45). -/

namespace Sys2Proof.Machine

/-- zext_16(nnn) (R57). -/
def addressOf (nnn : Addr12) : Word := nnn.setWidth 16

/-- zext_16 of a register value. -/
def zext16 (b : Byte) : Word := b.setWidth 16

/-- The register SHR and SHL read: Vx, since SHIFT_READS_VY is false (43_alu.md R130, R132, D3). -/
def State.shiftSource (s : State) (x y : Reg) : Byte :=
  if Config.shiftReadsVy then s.readV y else s.readV x

/-- The digit Fx29 takes from V[x]: all eight bits, since FONT_INDEX_LOW_NIBBLE is false
(44_index_memory.md R153, D9). -/
def fontDigit (b : Byte) : Nat :=
  if Config.fontIndexLowNibble then b.toNat % 16 else b.toNat

/-- trunc_16(FONT_BASE + 5 * digit) (R153). -/
def glyphAddress (b : Byte) : Word :=
  BitVec.ofNat 16 (Config.fontBase + Config.fontGlyphBytes * fontDigit b)

/-- The hundreds, tens and ones digits, in that order (R154). -/
def bcdDigits (b : Byte) : List Byte :=
  [BitVec.ofNat 8 (b.toNat / 100), BitVec.ofNat 8 (b.toNat / 10 % 10), BitVec.ofNat 8 (b.toNat % 10)]

/-- V0 to Vx (R155). -/
def State.firstV (s : State) (x : Reg) : List Byte := s.v.toList.take (x.val + 1)

/-- KEY[V[x]] as SKP and SKNP read it: none when the value is above 15 (42_skips.md R105, R106). -/
def State.keyLine (s : State) (k : Byte) : Option Bool := s.keys[k.toNat]?

/-- The least pressed key (45_timers_keys.md R174, D7). -/
def leastPressed (keys : Keypad) : Option Reg := (List.finRange 16).find? fun k => keys[k]

/-- A key index as a register value, zext_8 (R174). -/
def keyValue (k : Reg) : Byte := BitVec.ofNat 8 k.val

end Sys2Proof.Machine
end

