-- ==== Sys2Proof/Machine/Flags.lean ====
section
/-! DEFINITION. The flag computations (43_alu.md R128 to R134) and the order of the two writes when
VF is also the destination (10_state.md R22, R23). -/

namespace Sys2Proof.Machine

/-- The index of VF (R22). -/
abbrev flagReg : Reg := 15

/-- A flag as VF holds it: 0 or 1 (R22). -/
def flagByte (f : Bool) : Byte := if f then 1 else 0

/-- VF <- flag. -/
def State.writeFlag (s : State) (f : Bool) : State := s.writeV flagReg (flagByte f)

/-- First the result to V[x], then the flag to VF, so VF ends holding the flag (R23, D5). -/
def State.writeResultFlag (s : State) (x : Reg) (result : Byte) (f : Bool) : State :=
  (s.writeV x result).writeFlag f

/-- Carry out of bit 7: the exact sum exceeds 255 (R128). -/
def carryFlag (a b : Byte) : Bool := decide (255 < a.toNat + b.toNat)

/-- Not-borrow of a − b: strictly a > b, unsigned (R129, R131, C10). -/
def notBorrowFlag (a b : Byte) : Bool := decide (b.toNat < a.toNat)

/-- The bit a right shift drops, bit 0 (R130). -/
def shrFlag (b : Byte) : Bool := b.getLsbD 0

/-- The bit a left shift drops, bit 7 (R132). -/
def shlFlag (b : Byte) : Bool := b.getLsbD 7

end Sys2Proof.Machine
end

