-- ==== Sys2Proof/Machine/TimersKeys.lean ====
section
/-! DEFINITION. Timers and key wait (45_timers_keys.md): the instructions, the countdown of step 4
(40_engine_cycle.md R71) and the waiting tick (R175). -/

namespace Sys2Proof.Machine

/-- LD Vx, DT (R171): DT before this tick's countdown. -/
def execLdVxDt (x : Reg) (s : State) : Result := .next (s.writeV x s.dt)

/-- LD DT, Vx (R172). -/
def execLdDtVx (x : Reg) (s : State) : Result := .next (s.writeDt (s.readV x))

/-- LD ST, Vx (R173). -/
def execLdStVx (x : Reg) (s : State) : Result := .next (s.writeSt (s.readV x))

/-- LD Vx, K, the executing tick (R174): the keypad is sampled once; no key pressed parks. -/
def execLdVxKey (x : Reg) (s : State) : Result :=
  match leastPressed s.keys with
  | some k => .next (s.writeV x (keyValue k))
  | none => .next (s.writeWait (some x))

/-- One timer's countdown: it stays at 0 (R71). -/
def countDown (t : Byte) : Byte := if t = 0 then 0 else t - 1

/-- Step 4: both timers count down, independently (R71). -/
def State.countTimers (s : State) : State := { s with dt := countDown s.dt, st := countDown s.st }

/-- The key half of a waiting tick (R175): level-sensitive, the least pressed key (R176, D7). -/
def State.consumeKey (s : State) (x : Reg) : State :=
  match leastPressed s.keys with
  | some k => (s.writeV x (keyValue k)).writeWait none
  | none => s

/-- A waiting tick: no fetch, PC unchanged, the timers count down (R175, C7). -/
def State.waitingTick (s : State) (x : Reg) : State := (s.consumeKey x).countTimers

end Sys2Proof.Machine
end

