-- ==== Sys2Proof/Machine/Cycle.lean ====
section
/-! DEFINITION. The parts of a tick around an instruction (40_engine_cycle.md R68 to R73) and
construction (70_reset_and_hazards.md R243). -/

namespace Sys2Proof.Machine

/-- `snapshot KEY` (R73, R227): the tick sees what the host last drove on key[15:0] (log 6). -/
def State.sampleKeys (s : State) : State :=
  match s.keyInput with
  | [] => s
  | now :: later => { s with keys := now, keyInput := later }

/-- The start of a tick that is not terminal: the keypad is sampled, and fb_written is low until
00E0 or Dxyn executes (60_exceptions.md R225; log 7). -/
def State.beginTick (s : State) : State := { s.sampleKeys with fbWritten := false }

/-- Step 1: op <- MEM[pc0] ++ MEM[pc0 + 1]; none if pc0 + 1 ≥ 4096 (R68, 20_memory.md R38). -/
def State.fetch (s : State) : Option Word :=
  if s.pc.toNat + 1 < Config.memSize then
    some (opcodeOfBytes (Memory.byteAt s.mem s.pc.toNat) (Memory.byteAt s.mem (s.pc.toNat + 1)))
  else none

/-- FetchBounds(pc0): no opcode is recorded (60_exceptions.md R212). -/
def raiseFetchBounds (s : State) : Result := .next (s.takeFault ⟨.fetchBounds, none, s.pc, none⟩)

/-- Step 2: PC <- trunc_16(pc0 + 2) (R69). -/
def State.advance (s : State) : State := s.writePc (s.pc + 2)

/-- DecodeFailure(op, pc0), raised in step 3 (R70, R211). -/
def raiseDecodeFailure (op : Word) (s : State) : Result := raise .decodeFailure op none s

/-- Step 4 after an instruction's answer: the timers count down unless the tick faulted (R71,
R218). -/
def finishTick (r : Result) : Result :=
  match r with
  | .next t => .next (if t.fault.isSome then t else t.countTimers)
  | .fault f => .fault f
  | .refused f => .refused f

/-- Construction (R243): LoadOversize rejects a program of more than 3584 bytes (R229, C8); else the
reset state with the program at 0x200, verbatim (R244). `keys` is what the host's keypad holds and
`input` what it will drive later (D25; logs 5, 6). -/
def construct (program : List Byte) (keys : Keypad) (input : List Keypad) : Result :=
  if Config.maxProgramLen < program.length then .fault .loadOversize
  else
    .next { State.reset.storeBytes Config.programBase program with keys := keys, keyInput := input }

end Sys2Proof.Machine
end

