-- ==== Sys2Proof/Machine/Alu.lean ====
section
/-! DEFINITION. ALU and register moves (43_alu.md). Every meaning reads its operands before it
writes (00_scope.md R12); the destination is Vx (R121, D4). -/

namespace Sys2Proof.Machine

/-- LD Vx, kk (R122). -/
def execLdImm (x : Reg) (kk : Byte) (s : State) : Result := .next (s.writeV x kk)

/-- ADD Vx, kk (R123): no flag. -/
def execAddImm (x : Reg) (kk : Byte) (s : State) : Result := .next (s.writeV x (s.readV x + kk))

/-- LD Vx, Vy (R124). -/
def execLdReg (x y : Reg) (s : State) : Result := .next (s.writeV x (s.readV y))

/-- OR Vx, Vy (R125): VF is not reset. -/
def execOrReg (x y : Reg) (s : State) : Result := .next (s.writeV x (s.readV x ||| s.readV y))

/-- AND Vx, Vy (R126): VF is not reset. -/
def execAndReg (x y : Reg) (s : State) : Result := .next (s.writeV x (s.readV x &&& s.readV y))

/-- XOR Vx, Vy (R127): VF is not reset. -/
def execXorReg (x y : Reg) (s : State) : Result := .next (s.writeV x (s.readV x ^^^ s.readV y))

/-- ADD Vx, Vy with carry (R128). -/
def execAddReg (x y : Reg) (s : State) : Result :=
  let a := s.readV x
  let b := s.readV y
  .next (s.writeResultFlag x (a + b) (carryFlag a b))

/-- SUB Vx, Vy: Vx − Vy with the strict not-borrow flag (R129). -/
def execSubReg (x y : Reg) (s : State) : Result :=
  let a := s.readV x
  let b := s.readV y
  .next (s.writeResultFlag x (a - b) (notBorrowFlag a b))

/-- SHR Vx: logical, by one (R130). -/
def execShr (x y : Reg) (s : State) : Result :=
  let a := s.shiftSource x y
  .next (s.writeResultFlag x (a >>> 1) (shrFlag a))

/-- SUBN Vx, Vy: Vy − Vx with the strict not-borrow flag (R131). -/
def execSubnReg (x y : Reg) (s : State) : Result :=
  let a := s.readV x
  let b := s.readV y
  .next (s.writeResultFlag x (b - a) (notBorrowFlag b a))

/-- SHL Vx: by one, truncated (R132). -/
def execShl (x y : Reg) (s : State) : Result :=
  let a := s.shiftSource x y
  .next (s.writeResultFlag x (a <<< 1) (shlFlag a))

/-- `RandomByte()`: the next draw (R133, D2; log 4). -/
def State.randomByte (s : State) : Byte := Config.randomByte s.draws

/-- The source has yielded one more byte. -/
def State.consumeRandom (s : State) : State := { s with draws := s.draws + 1 }

/-- RND Vx, kk (R133): exactly one byte is consumed, for kk = 0 too. -/
def execRnd (x : Reg) (kk : Byte) (s : State) : Result :=
  .next (s.consumeRandom.writeV x (s.randomByte &&& kk))

end Sys2Proof.Machine
end

