-- ==== Sys2Proof/Machine/Control.lean ====
section
/-! DEFINITION. Control transfer (41_control_flow.md). Each meaning is step 3 of a tick: PC is
already pc0 + 2 (00_scope.md R12). -/

namespace Sys2Proof.Machine

/-- SYS nnn: a no-op (R81). -/
def execSys (_nnn : Addr12) (s : State) : Result := .next s

/-- JP nnn (R82). -/
def execJp (nnn : Addr12) (s : State) : Result := .next (s.writePc (addressOf nnn))

/-- CALL nnn (R83): the check precedes any write. SP > 16 is no legal value (R29; log 3). -/
def execCall (nnn : Addr12) (s : State) : Result :=
  if s.sp.toNat = Config.stackDepth then raise .stackOverflow (encode (.call nnn)) none s
  else if s.sp.toNat < Config.stackDepth then .next (s.pushPc.writePc (addressOf nnn))
  else .fault .illegalStackPointer

/-- RET (R84): no +2 is added to the popped address. SP > 16 is no legal value (R29; log 3). -/
def execRet (s : State) : Result :=
  if s.sp.toNat = 0 then raise .stackUnderflow (encode .ret) none s
  else
    match s.returnAddress with
    | some target => .next (s.popPc target)
    | none => .fault .illegalStackPointer

/-- JP V0, nnn (R85): always V0. -/
def execJpV0 (nnn : Addr12) (s : State) : Result :=
  .next (s.writePc (addressOf nnn + zext16 (s.readV 0)))

end Sys2Proof.Machine
end

