-- ==== Sys2Proof/Machine/Display.lean ====
section
/-! DEFINITION. The framebuffer controller (46_display.md). Coordinates are reduced modulo 32 and 64
before any access, so no access is out of range (R190, R193). -/

namespace Sys2Proof.Machine

/-- FB[r][c] (R190). -/
def pixel (fb : Framebuffer) (r : Fin 32) (c : Fin 64) : Bool := fb[r][c]

/-- FB[r][c] <- b (R190). -/
def setPixel (fb : Framebuffer) (r : Fin 32) (c : Fin 64) (b : Bool) : Framebuffer :=
  fb.set r (fb[r].set c b)

/-- The row of a target coordinate: modulo 32 (R193). -/
def rowOf (y : Nat) : Fin 32 := Fin.ofNat 32 y

/-- The column of a target coordinate: modulo 64 (R193, C4). -/
def colOf (x : Nat) : Fin 64 := Fin.ofNat 64 x

/-- A draw in progress: the pixels, and whether one was on before its toggle (R194). -/
structure Canvas where
  fb  : Framebuffer
  hit : Bool
  deriving DecidableEq, Repr

/-- XOR one set sprite bit into a pixel (R192). -/
def Canvas.toggle (k : Canvas) (r : Fin 32) (c : Fin 64) : Canvas :=
  ⟨setPixel k.fb r c (!pixel k.fb r c), k.hit || pixel k.fb r c⟩

/-- The bit of a sprite row at column `col`, MSB first: b[7 − col] (R192). -/
def spriteBit (b : Byte) (col : Nat) : Bool := b.getLsbD (7 - col)

/-- The first `cols` columns of one sprite row, left to right (R192). -/
def drawCols (x y : Nat) (b : Byte) (cols : Nat) (k : Canvas) : Canvas :=
  match cols with
  | 0 => k
  | col + 1 =>
    if spriteBit b col then (drawCols x y b col k).toggle (rowOf y) (colOf (x + col))
    else drawCols x y b col k

/-- The rows of a sprite, top to bottom, eight columns each (R192). -/
def drawRows (x y : Nat) (rows : List Byte) (k : Canvas) : Canvas :=
  match rows with
  | [] => k
  | b :: rest => drawRows x (y + 1) rest (drawCols x y b 8 k)

/-- The framebuffer was written this tick: fb_written (60_exceptions.md R225; log 7). -/
def State.writeFb (s : State) (fb : Framebuffer) : State := { s with fb := fb, fbWritten := true }

/-- CLS (R191): VF is not written. -/
def execCls (s : State) : Result := .next (s.writeFb Framebuffer.blank)

/-- The draw of DRW Vx, Vy, n: the operands as they stand, before VF is written (R192, D6). -/
def State.drawn (s : State) (x y : Reg) (n : Nibble) : Canvas :=
  drawRows (s.readV x).toNat (s.readV y).toNat (Memory.bytesFrom s.mem s.i.toNat n.val) ⟨s.fb, false⟩

/-- DRW Vx, Vy, n (R192): the bytes are checked before any pixel changes. -/
def execDrw (x y : Reg) (n : Nibble) (s : State) : Result :=
  checkRange (encode (.drw x y n)) s.i.toNat n.val s
    ((s.writeFb (s.drawn x y n).fb).writeFlag (s.drawn x y n).hit)

end Sys2Proof.Machine
end

