-- ==== Sys2Proof/Machine/IndexMemory.lean ====
section
/-! DEFINITION. The index register and memory transfers (44_index_memory.md). No meaning here
writes I but the first three (D10), and none writes a flag (D8). -/

namespace Sys2Proof.Machine

/-- LD I, nnn (R151). -/
def execLdI (nnn : Addr12) (s : State) : Result := .next (s.writeI (addressOf nnn))

/-- ADD I, Vx: modulo 2^16, no flag (R152, D8). -/
def execAddI (x : Reg) (s : State) : Result := .next (s.writeI (s.i + zext16 (s.readV x)))

/-- LD F, Vx (R153, D9). -/
def execLdFont (x : Reg) (s : State) : Result := .next (s.writeI (glyphAddress (s.readV x)))

/-- LD B, Vx: three digits at I, I+1, I+2 (R154). -/
def execLdBcd (x : Reg) (s : State) : Result :=
  checkRange (encode (.ldBcd x)) s.i.toNat 3 s (s.storeBytes s.i.toNat (bcdDigits (s.readV x)))

/-- LD [I], Vx: store V0..Vx, V0 at the lowest address (R155). -/
def execStoreRegs (x : Reg) (s : State) : Result :=
  checkRange (encode (.storeRegs x)) s.i.toNat (x.val + 1) s (s.storeBytes s.i.toNat (s.firstV x))

/-- LD Vx, [I]: load V0..Vx (R156). -/
def execLoadRegs (x : Reg) (s : State) : Result :=
  checkRange (encode (.loadRegs x)) s.i.toNat (x.val + 1) s
    (s.writeFirstV (Memory.bytesFrom s.mem s.i.toNat (x.val + 1)))

end Sys2Proof.Machine
end

