-- ==== Sys2Proof/Machine/Skips.lean ====
section
/-! DEFINITION. Conditional skips (42_skips.md). -/

namespace Sys2Proof.Machine

/-- SE Vx, kk (R101). -/
def execSeImm (x : Reg) (kk : Byte) (s : State) : Result := .next (s.skipIf (s.readV x == kk))

/-- SNE Vx, kk (R102). -/
def execSneImm (x : Reg) (kk : Byte) (s : State) : Result := .next (s.skipIf (s.readV x != kk))

/-- SE Vx, Vy (R103); the low nibble is ignored (D12). -/
def execSeReg (x y : Reg) (_ignored : Nibble) (s : State) : Result :=
  .next (s.skipIf (s.readV x == s.readV y))

/-- SNE Vx, Vy (R104); the low nibble is ignored (D12). -/
def execSneReg (x y : Reg) (_ignored : Nibble) (s : State) : Result :=
  .next (s.skipIf (s.readV x != s.readV y))

/-- Skip when key line V[x] is `wanted`; KeyIndex when V[x] > 15 (R105, R106, 60_exceptions.md
R217, D11). -/
def skipOnKey (op : Word) (x : Reg) (wanted : Bool) (s : State) : Result :=
  match s.keyLine (s.readV x) with
  | some pressed => .next (s.skipIf (pressed == wanted))
  | none => raise .keyIndex op (some (s.readV x).toNat) s

/-- SKP Vx (R105). -/
def execSkp (x : Reg) (s : State) : Result := skipOnKey (encode (.skp x)) x true s

/-- SKNP Vx (R106). -/
def execSknp (x : Reg) (s : State) : Result := skipOnKey (encode (.sknp x)) x false s

end Sys2Proof.Machine
end

