-- ==== Sys2Proof/Machine/Step.lean ====
section
/-! DEFINITION. One tick (40_engine_cycle.md R73), and placing a word where the next tick fetches. -/

namespace Sys2Proof.Machine

/-- Steps 2 and 3 for a fetched opcode, then step 4 (R69 to R71). -/
def executeWord (op : Word) (s : State) : Host.Outcome State Fault Refusal :=
  match decode op with
  | .invalid bad => raiseDecodeFailure bad s.advance
  | .instr i => finishTick (exec i s.advance)

/-- A tick that is not terminal, after its start: a waiting tick (R175), or fetch (R68), advance,
execute and timers. -/
def tick (s : State) : Host.Outcome State Fault Refusal :=
  match s.wait with
  | some x => .next (s.waitingTick x)
  | none =>
    match s.fetch with
    | none => raiseFetchBounds s
    | some op => executeWord op s

/-- One tick, in full (R73). Once FAULT is set a tick does nothing (60_exceptions.md R218). -/
def step (s : State) : Host.Outcome State Fault Refusal :=
  match s.fault with
  | some _ => .next s
  | none => tick s.beginTick

/-- `s` with the table word `w` of `nbits` bits where the very next step fetches and runs it: FAULT
and WAIT are cleared, and a PC that cannot fetch becomes the entry point (log 9). -/
def State.withFetchWord (s : State) (nbits w : Nat) : State :=
  let pc := if s.pc.toNat + 1 < Config.memSize then s.pc else BitVec.ofNat 16 Config.programBase
  let op := tableWord nbits w
  { s with
    pc := pc, fault := none, wait := none,
    mem := Memory.putBytes s.mem pc.toNat [firstByte op, secondByte op] }

end Sys2Proof.Machine
end

