-- ==== Sys2Proof/Safety.lean ====
section
/-! DEFINITION. The terms in which claims are made: words spelled by their nibbles, the parts of the
state and what it is to leave one unchanged, the legal states, and the states a session can reach. -/

namespace Sys2Proof

/-! ### Words spelled as 30_encoding.md R54 and R55 spell them, by arithmetic on their nibbles -/

/-- The word whose band is `band` and whose low twelve bits are nnn. -/
def wordNNN (band : Nat) (nnn : Addr12) : Word := BitVec.ofNat 16 (band * 4096 + nnn.toNat)

/-- The word of nibbles `band`, x and trailing byte kk. -/
def wordXKK (band : Nat) (x : Reg) (kk : Byte) : Word :=
  BitVec.ofNat 16 (band * 4096 + x.val * 256 + kk.toNat)

/-- The word of nibbles `band`, x, y, n. -/
def wordXYN (band : Nat) (x y : Reg) (n : Nibble) : Word :=
  BitVec.ofNat 16 (band * 4096 + x.val * 256 + y.val * 16 + n.val)

namespace Machine

/-! ### Frames -/

/-- One observable part of the state: each register, stack entry, memory byte, pixel and key line
for itself. -/
inductive Part where
  | reg (x : Reg)
  | i
  | pc
  | sp
  | slot (k : Fin 16)
  | dt
  | st
  | wait
  | fault
  | byte (a : Nat)
  | pixel (r : Fin 32) (c : Fin 64)
  | key (k : Fin 16)
  | fbWritten
  | draws
  | keyInput
  deriving DecidableEq, Repr

/-- The part reads the same in both states. -/
def Keeps (s t : State) (p : Part) : Prop :=
  match p with
  | .reg x => t.readV x = s.readV x
  | .i => t.i = s.i
  | .pc => t.pc = s.pc
  | .sp => t.sp = s.sp
  | .slot k => t.stack[k] = s.stack[k]
  | .dt => t.dt = s.dt
  | .st => t.st = s.st
  | .wait => t.wait = s.wait
  | .fault => t.fault = s.fault
  | .byte a => Memory.byteAt t.mem a = Memory.byteAt s.mem a
  | .pixel r c => pixel t.fb r c = pixel s.fb r c
  | .key k => t.keys[k] = s.keys[k]
  | .fbWritten => t.fbWritten = s.fbWritten
  | .draws => t.draws = s.draws
  | .keyInput => t.keyInput = s.keyInput

/-- Every part outside the list is unchanged from `s` to `t`. -/
def KeepsAllBut (changed : List Part) (s t : State) : Prop := ∀ p, p ∉ changed → Keeps s t p

/-- Every part of which `changed` does not hold is unchanged from `s` to `t`. -/
def KeepsUnless (changed : Part → Prop) (s t : State) : Prop := ∀ p, ¬ changed p → Keeps s t p

/-- The parts of the host's side of the interface that the start of a tick sets: the sampled key
lines, the host's coming inputs, and fb_written (60_exceptions.md R225, R227; logs 6 and 7). -/
def HostSide (p : Part) : Prop := p = .fbWritten ∨ p = .keyInput ∨ ∃ k, p = .key k

/-- `t` is `s` with a fault raised in step 3: FAULT holds the record, PC is again pc0 = PC − 2, and
nothing else differs (60_exceptions.md R216, R218). -/
def RaisedFrom (s t : State) (kind : FaultKind) (op : Word) (extra : Option Nat) : Prop :=
  t.fault = some ⟨kind, some op, s.pc - 2, extra⟩ ∧ t.pc = s.pc - 2 ∧
  KeepsAllBut [.pc, .fault] s t

/-! ### Who writes what (10_state.md R20) -/

/-- The instructions that define a flag (R22). -/
def definesFlag (i : Instr) : Bool :=
  match i with
  | .addReg _ _ | .subReg _ _ | .shr _ _ | .subnReg _ _ | .shl _ _ | .drw _ _ _ => true
  | .cls | .ret | .sys _ | .jp _ | .call _ | .seImm _ _ | .sneImm _ _ | .seReg _ _ _ | .ldImm _ _
  | .addImm _ _ | .ldReg _ _ | .orReg _ _ | .andReg _ _ | .xorReg _ _ | .sneReg _ _ _ | .ldI _
  | .jpV0 _ | .rnd _ _ | .skp _ | .sknp _ | .ldVxDt _ | .ldVxKey _ | .ldDtVx _ | .ldStVx _ | .addI _
  | .ldFont _ | .ldBcd _ | .storeRegs _ | .loadRegs _ => false

/-- The instruction names V[r] as a destination (R20, first row). -/
def hasDestination (i : Instr) (r : Reg) : Prop :=
  match i with
  | .ldImm x _ | .addImm x _ | .ldReg x _ | .orReg x _ | .andReg x _ | .xorReg x _ | .addReg x _
  | .subReg x _ | .shr x _ | .subnReg x _ | .shl x _ | .rnd x _ | .ldVxDt x | .ldVxKey x => r = x
  | .loadRegs x => r ≤ x
  | .cls | .ret | .sys _ | .jp _ | .call _ | .seImm _ _ | .sneImm _ _ | .seReg _ _ _ | .sneReg _ _ _
  | .ldI _ | .jpV0 _ | .drw _ _ _ | .skp _ | .sknp _ | .ldDtVx _ | .ldStVx _ | .addI _ | .ldFont _
  | .ldBcd _ | .storeRegs _ => False

/-- The instruction, completing in state `s`, may write part `p`: the "written by" column of R20, with
the addresses its rule gives. -/
def MayWrite (i : Instr) (s : State) (p : Part) : Prop :=
  match p with
  | .reg r => hasDestination i r ∨ (definesFlag i = true ∧ r = 15)
  | .i => (∃ nnn, i = .ldI nnn) ∨ ∃ x, i = .addI x ∨ i = .ldFont x
  | .pc =>
    i = .ret ∨ (∃ nnn, i = .jp nnn ∨ i = .call nnn ∨ i = .jpV0 nnn) ∨
    (∃ x kk, i = .seImm x kk ∨ i = .sneImm x kk) ∨ (∃ x y n, i = .seReg x y n ∨ i = .sneReg x y n) ∨
    ∃ x, i = .skp x ∨ i = .sknp x
  | .sp => i = .ret ∨ ∃ nnn, i = .call nnn
  | .slot k => (∃ nnn, i = .call nnn) ∧ k.val = s.sp.toNat
  | .dt => ∃ x, i = .ldDtVx x
  | .st => ∃ x, i = .ldStVx x
  | .wait => ∃ x, i = .ldVxKey x
  | .byte a =>
    ∃ x, (i = .ldBcd x ∧ s.i.toNat ≤ a ∧ a ≤ s.i.toNat + 2) ∨
      (i = .storeRegs x ∧ s.i.toNat ≤ a ∧ a ≤ s.i.toNat + x.val)
  | .pixel _ _ | .fbWritten => i = .cls ∨ ∃ x y n, i = .drw x y n
  | .draws => ∃ x kk, i = .rnd x kk
  | .fault | .key _ | .keyInput => False

/-! ### What a sprite covers, and what an instruction accesses through I -/

/-- A set bit of the n sprite rows at I lands on pixel (r, c): rows modulo 32, columns modulo 64, the
most significant bit leftmost (46_display.md R192, R193). -/
def SpriteCovers (s : State) (x y : Reg) (n : Nibble) (r : Fin 32) (c : Fin 64) : Prop :=
  ∃ row < n.val, ∃ col < 8,
    r.val = ((s.readV y).toNat + row) % 32 ∧ c.val = ((s.readV x).toNat + col) % 64 ∧
    (Memory.byteAt s.mem (s.i.toNat + row)).getLsbD (7 - col) = true

/-- The highest address the instruction accesses through I, if it accesses any (20_memory.md R36). -/
def lastAccess (i : Instr) (s : State) : Option Nat :=
  match i with
  | .drw _ _ n => if n.val = 0 then none else some (s.i.toNat + n.val - 1)
  | .ldBcd _ => some (s.i.toNat + 2)
  | .storeRegs x | .loadRegs x => some (s.i.toNat + x.val)
  | .cls | .ret | .sys _ | .jp _ | .call _ | .seImm _ _ | .sneImm _ _ | .seReg _ _ _ | .ldImm _ _
  | .addImm _ _ | .ldReg _ _ | .orReg _ _ | .andReg _ _ | .xorReg _ _ | .addReg _ _ | .subReg _ _
  | .shr _ _ | .subnReg _ _ | .shl _ _ | .sneReg _ _ _ | .ldI _ | .jpV0 _ | .rnd _ _ | .skp _
  | .sknp _ | .ldVxDt _ | .ldVxKey _ | .ldDtVx _ | .ldStVx _ | .addI _ | .ldFont _ => none

/-! ### Sequences -/

/-- Steps 2 and 3 of a tick for each instruction in turn: PC advances by 2, then the instruction
executes (40_engine_cycle.md R69, R70). -/
def runInOrder (is : List Instr) (s : State) : Result :=
  match is with
  | [] => .next s
  | i :: rest =>
    match exec i s.advance with
    | .next t => runInOrder rest t
    | .fault f => .fault f
    | .refused r => .refused r

/-! ### Legal states -/

/-- What a fault record says, for each kind, of the state it stands in (60_exceptions.md R211 to
R217, R221): the address and the word fetched there, the other fields R216 gives it, and the condition
that raised it. -/
def FaultRecord.Truthful (r : FaultRecord) (s : State) : Prop :=
  r.pc0 = s.pc ∧ (r.kind ≠ .fetchBounds → r.op.isSome ∧ r.op = s.fetch) ∧
  match r.kind with
  | .decodeFailure => r.extra = none ∧ ∃ op, r.op = some op ∧ decode op = .invalid op
  | .fetchBounds => r.extra = none ∧ r.op = none ∧ Config.memSize ≤ s.pc.toNat + 1
  | .memoryBounds =>
    r.extra = some (max s.i.toNat Config.memSize) ∧
    ∃ op i last, r.op = some op ∧ decode op = .instr i ∧ lastAccess i s = some last ∧
      Config.memSize ≤ last
  | .stackOverflow => r.extra = none ∧ s.sp = 16 ∧ ∃ nnn, r.op = some (encode (.call nnn))
  | .stackUnderflow => r.extra = none ∧ s.sp = 0 ∧ r.op = some (encode .ret)
  | .keyIndex =>
    ∃ x : Reg, r.extra = some (s.readV x).toNat ∧ 15 < (s.readV x).toNat ∧
      (r.op = some (encode (.skp x)) ∨ r.op = some (encode (.sknp x)))
  | .loadOversize => False

/-- The legal states: what construction leaves and every tick keeps. -/
structure State.Legal (s : State) : Prop where
  /-- 0 ≤ SP ≤ 16 (10_state.md R26) -/
  sp_le : s.sp.toNat ≤ Config.stackDepth
  /-- memory is in canonical form (log 8) -/
  mem_wf : Memory.wf s.mem = true
  /-- FAULT tells the truth about the state it stopped in (R216, R218, R221) -/
  fault_truthful : ∀ r, s.fault = some r → r.Truthful s
  /-- a core that stopped was not waiting (R219: waiting ticks raise nothing) -/
  fault_not_waiting : s.fault.isSome = true → s.wait = none
  /-- a core that stopped wrote no framebuffer in that tick (R225, log 7) -/
  fault_not_written : s.fault.isSome = true → s.fbWritten = false

/-- The states of a session: construction, then any number of ticks. The host's key presses are in
the `input` it was constructed with, so every behaviour of the host is covered (log 6). -/
inductive Reachable : State → Prop where
  | constructed (program : List Byte) (keys : Keypad) (input : List Keypad) (s : State)
      (h : construct program keys input = .next s) : Reachable s
  | ticked (s t : State) (hs : Reachable s) (h : step s = .next t) : Reachable t

end Machine

end Sys2Proof
end

