-- ==== Sys2Proof/Certificates/Slice0/Obligations.lean ====
section
/-! DEFINITION. The statements for the provers, each a `Prop`. A docstring names the rule of spec/ a
statement formalises; where a clause rests on a decision of the spec's own or on a choice of the
model, it names that. -/

open Sys2Proof Sys2Proof.Machine

/-! ### Encoding (30_encoding.md) -/

/-- Decode after encode is the identity on well-formed instructions, every operand at every value,
as a word and as bytes (R56, R67). -/
def Obligations.DecodeOfEncodeIsTheInstruction : Prop :=
  ∀ i : Instr, i.wf = true →
    decode (encode i) = .instr i ∧
    ∀ rest, decodeBytes (encodeBytes i ++ rest) = .ok (i, rest)

/-- Encode after decode is the identity on every word that is an instruction, and what the decoder
answers is well formed; where it answers Invalid it names the word (R58, R67). -/
def Obligations.EncodeOfDecodeIsTheWord : Prop :=
  (∀ (op : Word) (i : Instr), decode op = .instr i → encode i = op ∧ i.wf = true) ∧
  ∀ op bad : Word, decode op = .invalid bad → bad = op

/-- Band 0 (R60): 0x00E0 is CLS, 0x00EE is RET, every other word is SYS nnn, and none is Invalid. -/
def Obligations.BandZeroDecodesToClsRetOrSys : Prop :=
  ∀ nnn : Addr12, decode (wordNNN 0x0 nnn) =
    .instr (if nnn = 0x0E0 then .cls else if nnn = 0x0EE then .ret else .sys nnn)

/-- The opcode map of bands 1 to F with every operand, and exactly the Invalid words of R61 to R63
(R59, R64). The band and sub-opcode assignments are the spec's general knowledge (G1; log 11), the
ignored nibble of bands 5 and 9 its decision D12. -/
def Obligations.DecoderFollowsTheOpcodeMap : Prop :=
  (∀ nnn : Addr12,
    decode (wordNNN 0x1 nnn) = .instr (.jp nnn) ∧ decode (wordNNN 0x2 nnn) = .instr (.call nnn) ∧
    decode (wordNNN 0xA nnn) = .instr (.ldI nnn) ∧ decode (wordNNN 0xB nnn) = .instr (.jpV0 nnn)) ∧
  (∀ (x : Reg) (kk : Byte),
    decode (wordXKK 0x3 x kk) = .instr (.seImm x kk) ∧
    decode (wordXKK 0x4 x kk) = .instr (.sneImm x kk) ∧
    decode (wordXKK 0x6 x kk) = .instr (.ldImm x kk) ∧
    decode (wordXKK 0x7 x kk) = .instr (.addImm x kk) ∧
    decode (wordXKK 0xC x kk) = .instr (.rnd x kk)) ∧
  (∀ (x y : Reg) (n : Nibble),
    decode (wordXYN 0x5 x y n) = .instr (.seReg x y n) ∧
    decode (wordXYN 0x9 x y n) = .instr (.sneReg x y n) ∧
    decode (wordXYN 0xD x y n) = .instr (.drw x y n)) ∧
  (∀ x y : Reg,
    decode (wordXYN 0x8 x y 0x0) = .instr (.ldReg x y) ∧
    decode (wordXYN 0x8 x y 0x1) = .instr (.orReg x y) ∧
    decode (wordXYN 0x8 x y 0x2) = .instr (.andReg x y) ∧
    decode (wordXYN 0x8 x y 0x3) = .instr (.xorReg x y) ∧
    decode (wordXYN 0x8 x y 0x4) = .instr (.addReg x y) ∧
    decode (wordXYN 0x8 x y 0x5) = .instr (.subReg x y) ∧
    decode (wordXYN 0x8 x y 0x6) = .instr (.shr x y) ∧
    decode (wordXYN 0x8 x y 0x7) = .instr (.subnReg x y) ∧
    decode (wordXYN 0x8 x y 0xE) = .instr (.shl x y) ∧
    ∀ n : Nibble, n ∉ [0x0, 0x1, 0x2, 0x3, 0x4, 0x5, 0x6, 0x7, 0xE] →
      decode (wordXYN 0x8 x y n) = .invalid (wordXYN 0x8 x y n)) ∧
  (∀ x : Reg,
    decode (wordXKK 0xE x 0x9E) = .instr (.skp x) ∧ decode (wordXKK 0xE x 0xA1) = .instr (.sknp x) ∧
    ∀ kk : Byte, kk ∉ [0x9E, 0xA1] → decode (wordXKK 0xE x kk) = .invalid (wordXKK 0xE x kk)) ∧
  ∀ x : Reg,
    decode (wordXKK 0xF x 0x07) = .instr (.ldVxDt x) ∧
    decode (wordXKK 0xF x 0x0A) = .instr (.ldVxKey x) ∧
    decode (wordXKK 0xF x 0x15) = .instr (.ldDtVx x) ∧
    decode (wordXKK 0xF x 0x18) = .instr (.ldStVx x) ∧
    decode (wordXKK 0xF x 0x1E) = .instr (.addI x) ∧
    decode (wordXKK 0xF x 0x29) = .instr (.ldFont x) ∧
    decode (wordXKK 0xF x 0x33) = .instr (.ldBcd x) ∧
    decode (wordXKK 0xF x 0x55) = .instr (.storeRegs x) ∧
    decode (wordXKK 0xF x 0x65) = .instr (.loadRegs x) ∧
    ∀ kk : Byte, kk ∉ [0x07, 0x0A, 0x15, 0x18, 0x1E, 0x29, 0x33, 0x55, 0x65] →
      decode (wordXKK 0xF x kk) = .invalid (wordXKK 0xF x kk)

/-- Words written out from the encodings of R59, one or two a family, decode to what they stand for;
sanity only. Bands 3 and 5, the sub-opcodes of bands 8, E and F and so their Invalid neighbours are the
spec's general knowledge (G1; log 11, PRESUMED), the ignored nibble of 0x5127 its decision D12 (log 10). -/
def Obligations.WrittenOutWordsDecode : Prop :=
  decode 0x00E0 = .instr .cls ∧ decode 0x00EE = .instr .ret ∧ decode 0x0123 = .instr (.sys 0x123) ∧
  decode 0x1228 = .instr (.jp 0x228) ∧ decode 0x2300 = .instr (.call 0x300) ∧
  decode 0x3342 = .instr (.seImm 3 0x42) ∧ decode 0x5127 = .instr (.seReg 1 2 7) ∧
  decode 0x6A2F = .instr (.ldImm 0xA 0x2F) ∧ decode 0x8F15 = .instr (.subReg 0xF 1) ∧
  decode 0xA2F0 = .instr (.ldI 0x2F0) ∧ decode 0xC30F = .instr (.rnd 3 0x0F) ∧
  decode 0xD7A3 = .instr (.drw 7 0xA 3) ∧ decode 0xE59E = .instr (.skp 5) ∧
  decode 0xF50A = .instr (.ldVxKey 5) ∧ decode 0xF333 = .instr (.ldBcd 3) ∧
  decode 0x8008 = .invalid 0x8008 ∧ decode 0xE0A0 = .invalid 0xE0A0 ∧ decode 0xF075 = .invalid 0xF075

/-- Descriptors (R66, R67): at most two operand references, and one assembler form is one instruction,
but for the ignored low nibble of bands 5 and 9 (R64, D12). -/
def Obligations.DescriptorDeterminesTheInstruction : Prop :=
  (∀ i : Instr, i.descriptor.operands.length ≤ 2) ∧
  ∀ i j : Instr, i.descriptor = j.descriptor → i = j ∨
    ∃ x y n m, (i = .seReg x y n ∧ j = .seReg x y m) ∨ (i = .sneReg x y n ∧ j = .sneReg x y m)

/-! ### The tick (40_engine_cycle.md) -/

/-- A tick whose bytes at PC decode to `i` is `exec i` on the state with PC advanced, the keypad
sampled and fb_written low, then the countdown of both timers unless it faulted (R68 to R71, R73; the
keypad's sampling from `keyInput` and the low fb_written are the model's, logs 6 and 7). No instruction
is refused. -/
def Obligations.TickRunsTheDecodedInstruction : Prop :=
  ∀ (s : State) (i : Instr), s.fault = none → s.wait = none → s.pc.toNat + 1 < 4096 →
    decode (opcodeOfBytes (Memory.byteAt s.mem s.pc.toNat) (Memory.byteAt s.mem (s.pc.toNat + 1))) =
      .instr i →
    let s1 : State := { s with
      pc := s.pc + 2, fbWritten := false, keys := s.keyInput.headD s.keys,
      keyInput := s.keyInput.tail }
    (∀ t, exec i s1 = .next t → t.fault = none →
      step s = .next { t with
        dt := if t.dt = 0 then 0 else t.dt - 1, st := if t.st = 0 then 0 else t.st - 1 }) ∧
    (∀ t, exec i s1 = .next t → t.fault ≠ none → step s = .next t) ∧
    (∀ f, exec i s1 = .fault f → step s = .fault f) ∧
    ∀ r, exec i s1 ≠ .refused r

/-- Fetch (R68): two consecutive bytes, big-endian; a tick with PC + 1 ≥ 4096 raises FetchBounds(pc0)
with no opcode, and nothing else happens (but the host's side, logs 6 and 7). -/
def Obligations.FetchIsBigEndianOrRaisesFetchBounds : Prop :=
  ∀ s : State, s.fault = none → s.wait = none →
    (s.pc.toNat + 1 < 4096 → ∃ op : Word,
      op.toNat = 256 * (Memory.byteAt s.mem s.pc.toNat).toNat +
        (Memory.byteAt s.mem (s.pc.toNat + 1)).toNat ∧
      step s = executeWord op s.beginTick) ∧
    (4096 ≤ s.pc.toNat + 1 → ∃ t, step s = .next t ∧
      t.fault = some ⟨.fetchBounds, none, s.pc, none⟩ ∧
      KeepsUnless (fun p => p = .fault ∨ HostSide p) s t)

/-- DecodeFailure (R70, R211): a fetched Invalid word raises it with the word and pc0, and nothing else
changes; only bands 8, E and F hold Invalid words. -/
def Obligations.InvalidWordRaisesDecodeFailure : Prop :=
  (∀ (s : State) (op : Word), s.fault = none → s.wait = none → s.pc.toNat + 1 < 4096 →
    op = opcodeOfBytes (Memory.byteAt s.mem s.pc.toNat) (Memory.byteAt s.mem (s.pc.toNat + 1)) →
    decode op = .invalid op →
    ∃ t, step s = .next t ∧ t.fault = some ⟨.decodeFailure, some op, s.pc, none⟩ ∧
      KeepsUnless (fun p => p = .fault ∨ HostSide p) s t) ∧
  ∀ op : Word, decode op = .invalid op → op.toNat / 4096 ∈ [0x8, 0xE, 0xF]

/-- Step 4 (R71): in every tick that does not fault, waiting or not, both timers count down by one and
stay at 0; one that this tick's Fx15 or Fx18 wrote counts down from the written value. -/
def Obligations.TimersCountDownOncePerTick : Prop :=
  ∀ s t : State, s.fault = none → step s = .next t → t.fault = none →
    (∀ x, s.wait = none → s.fetch = some (wordXKK 0xF x 0x15) →
      t.dt.toNat = (s.readV x).toNat - 1) ∧
    ((s.wait ≠ none ∨ ∀ x, s.fetch ≠ some (wordXKK 0xF x 0x15)) → t.dt.toNat = s.dt.toNat - 1) ∧
    (∀ x, s.wait = none → s.fetch = some (wordXKK 0xF x 0x18) →
      t.st.toNat = (s.readV x).toNat - 1) ∧
    ((s.wait ≠ none ∨ ∀ x, s.fetch ≠ some (wordXKK 0xF x 0x18)) → t.st.toNat = s.st.toNat - 1)

/-- A waiting tick (45_timers_keys.md R175, R176; decision D7, C7): it always completes; the least
pressed key of the sampled keypad goes to V[x] and ends the wait, no pressed key leaves it; PC and all
else are unchanged but for the timers and the host's side (log 6). -/
def Obligations.WaitingTickConsumesTheLeastPressedKey : Prop :=
  ∀ (s : State) (x : Reg), s.fault = none → s.wait = some x →
    ∃ t, step s = .next t ∧ t.keys = s.keyInput.headD s.keys ∧
      t.dt.toNat = s.dt.toNat - 1 ∧ t.st.toNat = s.st.toNat - 1 ∧
      (∀ k : Reg, t.keys[k] = true → (∀ j < k, t.keys[j] = false) →
        (t.readV x).toNat = k.val ∧ t.wait = none ∧
        KeepsUnless (fun p => p ∈ [.reg x, .wait, .dt, .st] ∨ HostSide p) s t) ∧
      ((∀ k : Reg, t.keys[k] = false) →
        KeepsUnless (fun p => p ∈ [.dt, .st] ∨ HostSide p) s t)

/-- A key wait with no key pressed (45_timers_keys.md R177, R175; decision D7): however many ticks run,
nothing is fetched and nothing changes but the timers, which count down to 0, and the host's side. -/
def Obligations.WaitWithoutAKeyTicksForever : Prop :=
  ∀ (s : State) (x : Reg) (n : Nat), s.fault = none → s.wait = some x →
    (∀ k : Reg, s.keys[k] = false) → (∀ keys ∈ s.keyInput, ∀ k : Reg, keys[k] = false) →
    ∃ t, core.run n s = .next t ∧
      t.dt.toNat = s.dt.toNat - n ∧ t.st.toNat = s.st.toNat - n ∧
      KeepsUnless (fun p => p ∈ [.dt, .st] ∨ HostSide p) s t

/-- A jump to itself (40_engine_cycle.md R74, derived there from R82 and R71) idles forever: however
many ticks run, only the timers count down. -/
def Obligations.JumpToSelfIdlesForever : Prop :=
  ∀ (s : State) (nnn : Addr12) (n : Nat), s.fault = none → s.wait = none →
    s.pc.toNat = nnn.toNat → s.fetch = some (wordNNN 0x1 nnn) →
    ∃ t, core.run n s = .next t ∧
      t.dt.toNat = s.dt.toNat - n ∧ t.st.toNat = s.st.toNat - n ∧
      KeepsUnless (fun p => p ∈ [.dt, .st] ∨ HostSide p) s t

/-- A faulting tick (60_exceptions.md R218 with D16, D17; R78) changes nothing but FAULT (and the
host's side, logs 6 and 7), leaves fb_written low, and the next tick does nothing. -/
def Obligations.FaultingTickChangesOnlyFault : Prop :=
  ∀ s t : State, s.fault = none → step s = .next t → t.fault ≠ none →
    KeepsUnless (fun p => p = .fault ∨ HostSide p) s t ∧ t.fbWritten = false ∧ step t = .next t

/-- Once FAULT is set, no tick changes anything, for any number of ticks (R218 (c), R31). -/
def Obligations.FaultIsTerminal : Prop :=
  ∀ (s : State) (n : Nat), s.fault ≠ none → core.run n s = .next s

/-! ### Construction (70_reset_and_hazards.md) -/

/-- Construction (R240, R243, R229; decisions D19, D20, D24, D25): what it leaves for every program of
at most 3584 bytes, and LoadOversize for a longer one. The 80 font bytes are written out glyph by glyph
(20_memory.md R41; general knowledge G2, log 11). fb_written and draws have no value in the spec and
are not stated; that the rejection is a stop is the model's (log 14). -/
def Obligations.ConstructionLoadsTheProgram : Prop :=
  ∀ (program : List Byte) (keys : Keypad) (input : List Keypad),
    (program.length ≤ 3584 → ∃ t, construct program keys input = .next t ∧
      (∀ x, t.readV x = 0) ∧ t.i = 0 ∧ t.pc = 0x200 ∧ t.sp = 0 ∧ (∀ k : Fin 16, t.stack[k] = 0) ∧
      t.dt = 0 ∧ t.st = 0 ∧ t.wait = none ∧ t.fault = none ∧
      (∀ r c, pixel t.fb r c = false) ∧ t.keys = keys ∧ t.keyInput = input ∧
      (∀ k < program.length, Memory.byteAt t.mem (0x200 + k) = program.getD k 0) ∧
      (∀ a < 4096, a < 0x050 ∨ (0x0A0 ≤ a ∧ a < 0x200) ∨ 0x200 + program.length ≤ a →
        Memory.byteAt t.mem a = 0) ∧
      let glyph (d : Nat) : List Byte :=
        (List.range 5).map fun k => Memory.byteAt t.mem (0x050 + 5 * d + k)
      glyph 0 = [0xF0, 0x90, 0x90, 0x90, 0xF0] ∧
      glyph 1 = [0x20, 0x60, 0x20, 0x20, 0x70] ∧
      glyph 2 = [0xF0, 0x10, 0xF0, 0x80, 0xF0] ∧
      glyph 3 = [0xF0, 0x10, 0xF0, 0x10, 0xF0] ∧
      glyph 4 = [0x90, 0x90, 0xF0, 0x10, 0x10] ∧
      glyph 5 = [0xF0, 0x80, 0xF0, 0x10, 0xF0] ∧
      glyph 6 = [0xF0, 0x80, 0xF0, 0x90, 0xF0] ∧
      glyph 7 = [0xF0, 0x10, 0x20, 0x40, 0x40] ∧
      glyph 8 = [0xF0, 0x90, 0xF0, 0x90, 0xF0] ∧
      glyph 9 = [0xF0, 0x90, 0xF0, 0x10, 0xF0] ∧
      glyph 10 = [0xF0, 0x90, 0xF0, 0x90, 0x90] ∧
      glyph 11 = [0xE0, 0x90, 0xE0, 0x90, 0xE0] ∧
      glyph 12 = [0xF0, 0x80, 0x80, 0x80, 0xF0] ∧
      glyph 13 = [0xE0, 0x90, 0x90, 0x90, 0xE0] ∧
      glyph 14 = [0xF0, 0x80, 0xF0, 0x80, 0xF0] ∧
      glyph 15 = [0xF0, 0x80, 0xF0, 0x80, 0x80]) ∧
    (3584 < program.length → construct program keys input = .fault .loadOversize)

/-- The host's reset state is construction with an empty program (R243, D24), no key pressed and no
coming input (the model's choice, logs 5 and 6). -/
def Obligations.ResetIsEmptyConstruction : Prop :=
  construct [] Keypad.released [] = .next State.reset

/-! ### Control transfer (41_control_flow.md) -/

/-- SYS nnn (R81) is a no-op: as an instruction it changes nothing, and its whole tick moves PC on by 2
and counts the timers down. -/
def Obligations.SysIsANoOp : Prop :=
  ∀ (nnn : Addr12) (s : State), nnn ≠ 0x0E0 → nnn ≠ 0x0EE →
    decode (wordNNN 0x0 nnn) = .instr (.sys nnn) ∧
    (∃ t, exec (.sys nnn) s = .next t ∧ KeepsAllBut [] s t) ∧
    (s.fault = none → s.wait = none → s.fetch = some (wordNNN 0x0 nnn) →
      ∃ t, step s = .next t ∧ t.pc = s.pc + 2 ∧
        t.dt.toNat = s.dt.toNat - 1 ∧ t.st.toNat = s.st.toNat - 1 ∧
        KeepsUnless (fun p => p ∈ [.pc, .dt, .st] ∨ HostSide p) s t)

/-- JP nnn (R82) and JP V0, nnn (R85): the target, odd or past 0xFFF alike, and nothing else; after
the tick's step 4, the next tick faults FetchBounds when the target cannot be fetched (R72, derived there
from R68). The record is 60_exceptions.md R212 and R216 (decision D15, log 10), and the faulting tick a
next state (log 1, DEDUCED). -/
def Obligations.JumpsSetPc : Prop :=
  ∀ (nnn : Addr12) (s : State),
    decode (wordNNN 0x1 nnn) = .instr (.jp nnn) ∧ decode (wordNNN 0xB nnn) = .instr (.jpV0 nnn) ∧
    (∃ t, exec (.jp nnn) s = .next t ∧ t.pc.toNat = nnn.toNat ∧ KeepsAllBut [.pc] s t ∧
      (s.fault = none → s.wait = none → nnn.toNat = 0xFFF →
        ∃ u, step t.countTimers = .next u ∧ u.fault = some ⟨.fetchBounds, none, 0xFFF, none⟩)) ∧
    ∃ t, exec (.jpV0 nnn) s = .next t ∧ t.pc.toNat = nnn.toNat + (s.readV 0).toNat ∧
      KeepsAllBut [.pc] s t ∧
      (s.fault = none → s.wait = none → 0xFFF ≤ nnn.toNat + (s.readV 0).toNat →
        ∃ u, step t.countTimers = .next u ∧ u.fault = some ⟨.fetchBounds, none, t.pc, none⟩)

/-- CALL nnn (R83): PC goes to STACK[SP], SP up by one, PC to nnn (that the pushed PC is pc0 + 2 R83
derives); with SP = 16 StackOverflow (R213), checked before any write: the record and the untouched rest
are 60_exceptions.md R216 and R218 (decisions D15, D16; logs 1, 2, 10). -/
def Obligations.CallPushesPcOrRaisesStackOverflow : Prop :=
  ∀ (nnn : Addr12) (s : State),
    decode (wordNNN 0x2 nnn) = .instr (.call nnn) ∧
    (∀ h : s.sp.toNat < 16, ∃ t, exec (.call nnn) s = .next t ∧
      t.stack[s.sp.toNat] = s.pc ∧ t.sp.toNat = s.sp.toNat + 1 ∧ t.pc.toNat = nnn.toNat ∧
      KeepsAllBut [.pc, .sp, .slot ⟨s.sp.toNat, h⟩] s t) ∧
    (s.sp.toNat = 16 → ∃ t, exec (.call nnn) s = .next t ∧
      RaisedFrom s t .stackOverflow (wordNNN 0x2 nnn) none)

/-- RET (R84): SP down by one, PC from STACK[SP] with no 2 added (which R84 derives); with SP = 0
StackUnderflow (R214): the record and the untouched rest are 60_exceptions.md R216 and R218 (decisions
D15, D16; logs 1, 2, 10). -/
def Obligations.RetPopsPcOrRaisesStackUnderflow : Prop :=
  ∀ s : State,
    decode 0x00EE = .instr .ret ∧
    (∀ h : s.sp.toNat - 1 < 16, 0 < s.sp.toNat → ∃ t, exec .ret s = .next t ∧
      t.sp.toNat = s.sp.toNat - 1 ∧ t.pc = s.stack[s.sp.toNat - 1] ∧
      KeepsAllBut [.pc, .sp] s t) ∧
    (s.sp.toNat = 0 → ∃ t, exec .ret s = .next t ∧ RaisedFrom s t .stackUnderflow 0x00EE none)

/-- CALL and RET in a state whose SP is above 16, which no instruction can produce (10_state.md R29):
the model stops by name (its own choice, log 3). -/
def Obligations.IllegalStackPointerStopsCallAndRet : Prop :=
  ∀ (nnn : Addr12) (s : State), 16 < s.sp.toNat →
    exec (.call nnn) s = .fault .illegalStackPointer ∧ exec .ret s = .fault .illegalStackPointer

/-- Stack discipline (R86, derived there from R83 and R84): N nested calls, N and SP within 16 together,
then k of their returns. The k-th return comes back to the address after its own call (call number
N − k, which stood at the PC of the start or at the target of the call before it), with SP k below its
top; all N come back to the address after the first call with SP as it was. All else is unchanged but
the stack entries the calls used. -/
def Obligations.NestedCallsAndReturnsRestoreSp : Prop :=
  ∀ (targets : List Addr12) (s : State), s.sp.toNat + targets.length ≤ 16 →
    ∀ k, 1 ≤ k → k ≤ targets.length →
      ∃ t a, runInOrder (targets.map .call ++ List.replicate k .ret) s = .next t ∧
        (s.pc :: targets.map addressOf)[targets.length - k]? = some a ∧ t.pc = a + 2 ∧
        t.sp.toNat = s.sp.toNat + (targets.length - k) ∧
        (k = targets.length → t.pc = s.pc + 2 ∧ t.sp = s.sp) ∧
        KeepsUnless (fun p => p = .pc ∨ p = .sp ∨ ∃ j : Fin 16, p = .slot j ∧
          s.sp.toNat ≤ j.val ∧ j.val < s.sp.toNat + targets.length) s t

/-! ### Skips (42_skips.md) -/

/-- SE and SNE, immediate and register (R100 to R104; band numbers G1, the ignored nibble D12): PC moves
on by 2 exactly when the condition holds, and nothing else changes. -/
def Obligations.ComparisonSkipsMovePc : Prop :=
  ∀ (x y : Reg) (kk : Byte) (n : Nibble) (s : State),
    (∃ t, exec (.seImm x kk) s = .next t ∧
      t.pc = (if (s.readV x).toNat = kk.toNat then s.pc + 2 else s.pc) ∧ KeepsAllBut [.pc] s t) ∧
    (∃ t, exec (.sneImm x kk) s = .next t ∧
      t.pc = (if (s.readV x).toNat = kk.toNat then s.pc else s.pc + 2) ∧ KeepsAllBut [.pc] s t) ∧
    (∃ t, exec (.seReg x y n) s = .next t ∧
      t.pc = (if (s.readV x).toNat = (s.readV y).toNat then s.pc + 2 else s.pc) ∧
      KeepsAllBut [.pc] s t) ∧
    ∃ t, exec (.sneReg x y n) s = .next t ∧
      t.pc = (if (s.readV x).toNat = (s.readV y).toNat then s.pc else s.pc + 2) ∧
      KeepsAllBut [.pc] s t

/-- SKP and SKNP (R105, R106; decision D11): the key line V[x] decides for V[x] ≤ 15, and KeyIndex with
the value of V[x] is raised above (60_exceptions.md R217). -/
def Obligations.KeySkipsReadTheKeyLine : Prop :=
  ∀ (x : Reg) (s : State),
    (∀ h : (s.readV x).toNat < 16,
      (∃ t, exec (.skp x) s = .next t ∧
        t.pc = (if s.keys[(s.readV x).toNat] then s.pc + 2 else s.pc) ∧ KeepsAllBut [.pc] s t) ∧
      ∃ t, exec (.sknp x) s = .next t ∧
        t.pc = (if s.keys[(s.readV x).toNat] then s.pc else s.pc + 2) ∧ KeepsAllBut [.pc] s t) ∧
    (15 < (s.readV x).toNat →
      (∃ t, exec (.skp x) s = .next t ∧
        RaisedFrom s t .keyIndex (wordXKK 0xE x 0x9E) (some (s.readV x).toNat)) ∧
      ∃ t, exec (.sknp x) s = .next t ∧
        RaisedFrom s t .keyIndex (wordXKK 0xE x 0xA1) (some (s.readV x).toNat))

/-! ### ALU (43_alu.md) -/

/-- LD Vx, kk (R122) and ADD Vx, kk (R123): the sum wraps modulo 256, and no flag is written. -/
def Obligations.ImmediateMoveAndAddWriteVx : Prop :=
  ∀ (x : Reg) (kk : Byte) (s : State),
    decode (wordXKK 0x6 x kk) = .instr (.ldImm x kk) ∧
    decode (wordXKK 0x7 x kk) = .instr (.addImm x kk) ∧
    (∃ t, exec (.ldImm x kk) s = .next t ∧ t.readV x = kk ∧ KeepsAllBut [.reg x] s t) ∧
    ∃ t, exec (.addImm x kk) s = .next t ∧
      (t.readV x).toNat = ((s.readV x).toNat + kk.toNat) % 256 ∧ KeepsAllBut [.reg x] s t

/-- LD, OR, AND and XOR of registers (R124 to R127; destination D4, sub-nibbles G1), bit by bit; VF is
not reset. -/
def Obligations.RegisterMoveAndLogicWriteVx : Prop :=
  ∀ (x y : Reg) (s : State),
    (∃ t, exec (.ldReg x y) s = .next t ∧ t.readV x = s.readV y ∧ KeepsAllBut [.reg x] s t) ∧
    (∃ t, exec (.orReg x y) s = .next t ∧ KeepsAllBut [.reg x] s t ∧ ∀ k < 8,
      (t.readV x).getLsbD k = ((s.readV x).getLsbD k || (s.readV y).getLsbD k)) ∧
    (∃ t, exec (.andReg x y) s = .next t ∧ KeepsAllBut [.reg x] s t ∧ ∀ k < 8,
      (t.readV x).getLsbD k = ((s.readV x).getLsbD k && (s.readV y).getLsbD k)) ∧
    ∃ t, exec (.xorReg x y) s = .next t ∧ KeepsAllBut [.reg x] s t ∧ ∀ k < 8,
      (t.readV x).getLsbD k = ((s.readV x).getLsbD k ^^ (s.readV y).getLsbD k)

/-- ADD, SUB and SUBN of registers (R128, R129, R131, R134; destination D4, sub-nibbles G1): the result
modulo 256 in V[x], then the flag in VF, which stands also when x = F (R23, D5). The comparison is
strict (C10). -/
def Obligations.AddAndSubtractWriteResultThenFlag : Prop :=
  ∀ (x y : Reg) (s : State),
    let a := (s.readV x).toNat
    let b := (s.readV y).toNat
    (∃ t, exec (.addReg x y) s = .next t ∧ (x ≠ 15 → (t.readV x).toNat = (a + b) % 256) ∧
      (t.readV 15).toNat = (if 255 < a + b then 1 else 0) ∧ KeepsAllBut [.reg x, .reg 15] s t) ∧
    (∃ t, exec (.subReg x y) s = .next t ∧ (x ≠ 15 → (t.readV x).toNat = (a + 256 - b) % 256) ∧
      (t.readV 15).toNat = (if b < a then 1 else 0) ∧ KeepsAllBut [.reg x, .reg 15] s t) ∧
    ∃ t, exec (.subnReg x y) s = .next t ∧ (x ≠ 15 → (t.readV x).toNat = (b + 256 - a) % 256) ∧
      (t.readV 15).toNat = (if a < b then 1 else 0) ∧ KeepsAllBut [.reg x, .reg 15] s t

/-- SHR and SHL (R130, R132, R134; decision D3: y is not read): by one, with the bit shifted out in
VF. -/
def Obligations.ShiftsWriteResultThenFlag : Prop :=
  ∀ (x y : Reg) (s : State),
    let a := (s.readV x).toNat
    (∃ t, exec (.shr x y) s = .next t ∧ (x ≠ 15 → (t.readV x).toNat = a / 2) ∧
      (t.readV 15).toNat = a % 2 ∧ KeepsAllBut [.reg x, .reg 15] s t) ∧
    ∃ t, exec (.shl x y) s = .next t ∧ (x ≠ 15 → (t.readV x).toNat = 2 * a % 256) ∧
      (t.readV 15).toNat = a / 128 ∧ KeepsAllBut [.reg x, .reg 15] s t

/-- RND Vx, kk (R133; decision D2): exactly one byte of the random source is consumed, and V[x] is that
byte AND kk. It holds for every value of the free byte and of the counter (log 4). -/
def Obligations.RndMasksOneDraw : Prop :=
  ∀ (x : Reg) (kk : Byte) (s : State),
    ∃ t, exec (.rnd x kk) s = .next t ∧ t.draws = s.draws + 1 ∧ KeepsAllBut [.reg x, .draws] s t ∧
      ∀ k < 8, (t.readV x).getLsbD k = ((Config.randomByte s.draws).getLsbD k && kk.getLsbD k)

/-! ### Index register and memory (44_index_memory.md) -/

/-- LD I, nnn (R151): I is nnn zero-extended, nothing else changes. -/
def Obligations.LoadIndexSetsI : Prop :=
  ∀ (nnn : Addr12) (s : State),
    decode (wordNNN 0xA nnn) = .instr (.ldI nnn) ∧
    ∃ t, exec (.ldI nnn) s = .next t ∧ t.i.toNat = nnn.toNat ∧ KeepsAllBut [.i] s t

/-- ADD I, Vx (R152, D8) wraps modulo 2^16 with no flag, and LD F, Vx (R153, D9) points I at
0x050 + 5·V[x], all eight bits of V[x]. -/
def Obligations.IndexArithmeticSetsI : Prop :=
  ∀ (x : Reg) (s : State),
    (∃ t, exec (.addI x) s = .next t ∧ t.i.toNat = (s.i.toNat + (s.readV x).toNat) % 65536 ∧
      KeepsAllBut [.i] s t) ∧
    ∃ t, exec (.ldFont x) s = .next t ∧ t.i.toNat = 0x050 + 5 * (s.readV x).toNat ∧
      KeepsAllBut [.i] s t

/-- LD B, Vx (R154, sub-byte G1): hundreds, tens and ones at I, I+1, I+2; every other byte and part
unchanged; MemoryBounds with max(I, 4096) when I + 2 ≥ 4096, nothing written (R150, R215). -/
def Obligations.BcdStoresThreeDigits : Prop :=
  ∀ (x : Reg) (s : State),
    (Memory.wf s.mem = true → s.i.toNat + 2 < 4096 → ∃ t, exec (.ldBcd x) s = .next t ∧
      (Memory.byteAt t.mem s.i.toNat).toNat = (s.readV x).toNat / 100 ∧
      (Memory.byteAt t.mem (s.i.toNat + 1)).toNat = (s.readV x).toNat / 10 % 10 ∧
      (Memory.byteAt t.mem (s.i.toNat + 2)).toNat = (s.readV x).toNat % 10 ∧
      KeepsUnless (fun p => ∃ k < 3, p = .byte (s.i.toNat + k)) s t) ∧
    (4096 ≤ s.i.toNat + 2 → ∃ t, exec (.ldBcd x) s = .next t ∧
      RaisedFrom s t .memoryBounds (wordXKK 0xF x 0x33) (some (max s.i.toNat 4096)))

/-- LD [I], Vx (R155, I unchanged D10, sub-byte G1): V0..Vx to I..I+x; every other byte and part
unchanged; MemoryBounds when I + x ≥ 4096, nothing written (R150, R215). -/
def Obligations.StoreRegistersWritesV0ToVx : Prop :=
  ∀ (x : Reg) (s : State),
    (Memory.wf s.mem = true → s.i.toNat + x.val < 4096 → ∃ t, exec (.storeRegs x) s = .next t ∧
      (∀ r ≤ x, Memory.byteAt t.mem (s.i.toNat + r.val) = s.readV r) ∧
      KeepsUnless (fun p => ∃ k ≤ x.val, p = .byte (s.i.toNat + k)) s t) ∧
    (4096 ≤ s.i.toNat + x.val → ∃ t, exec (.storeRegs x) s = .next t ∧
      RaisedFrom s t .memoryBounds (wordXKK 0xF x 0x55) (some (max s.i.toNat 4096)))

/-- LD Vx, [I] (R156, I unchanged D10, sub-byte G1): V0..Vx from I..I+x, VF as a plain register; all
else unchanged; MemoryBounds when I + x ≥ 4096, no register written (R150, R215). -/
def Obligations.LoadRegistersReadsV0ToVx : Prop :=
  ∀ (x : Reg) (s : State),
    (s.i.toNat + x.val < 4096 → ∃ t, exec (.loadRegs x) s = .next t ∧
      (∀ r ≤ x, t.readV r = Memory.byteAt s.mem (s.i.toNat + r.val)) ∧
      KeepsUnless (fun p => ∃ r ≤ x, p = .reg r) s t) ∧
    (4096 ≤ s.i.toNat + x.val → ∃ t, exec (.loadRegs x) s = .next t ∧
      RaisedFrom s t .memoryBounds (wordXKK 0xF x 0x65) (some (max s.i.toNat 4096)))

/-- Round trip (R157, derived there): Fx55, then anything that keeps I and the stored bytes, then Fx65
with the same x gives V0..Vx back. -/
def Obligations.StoreThenLoadRestoresRegisters : Prop :=
  ∀ (x : Reg) (s t u : State), Memory.wf s.mem = true → s.i.toNat + x.val < 4096 →
    exec (.storeRegs x) s = .next t → u.i = t.i →
    (∀ k ≤ x.val, Keeps t u (.byte (s.i.toNat + k))) →
    ∃ w, exec (.loadRegs x) u = .next w ∧ ∀ r ≤ x, w.readV r = s.readV r

/-- Fx33 then F265 at the same I loads the decimal digits (R158, derived there): together they spell the
value. -/
def Obligations.BcdThenLoadSpellsTheValue : Prop :=
  ∀ (x : Reg) (s : State), Memory.wf s.mem = true → s.i.toNat + 2 < 4096 →
    ∃ t, runInOrder [.ldBcd x, .loadRegs 2] s = .next t ∧
      100 * (t.readV 0).toNat + 10 * (t.readV 1).toNat + (t.readV 2).toNat = (s.readV x).toNat ∧
      (t.readV 1).toNat < 10 ∧ (t.readV 2).toNat < 10

/-- Self-modifying code (20_memory.md R48, 70_reset_and_hazards.md R248; decision D23): an Fx55 that
stores over the very next instruction; the next tick fetches the stored bytes. -/
def Obligations.StoreToTheNextInstructionIsFetched : Prop :=
  ∀ (s : State) (x : Reg), Memory.wf s.mem = true → s.fault = none → s.wait = none →
    s.fetch = some (wordXKK 0xF x 0x55) → 1 ≤ x.val → s.i.toNat = s.pc.toNat + 2 →
    s.i.toNat + x.val < 4096 →
    ∃ t op, step s = .next t ∧ t.pc = s.pc + 2 ∧ t.fetch = some op ∧
      op.toNat = 256 * (s.readV 0).toNat + (s.readV 1).toNat

/-! ### Timers and keys (45_timers_keys.md) -/

/-- LD Vx, DT (R171), LD DT, Vx (R172) and LD ST, Vx (R173), before the tick's countdown (sub-bytes
G1). -/
def Obligations.TimerMovesCopyTheValue : Prop :=
  ∀ (x : Reg) (s : State),
    (∃ t, exec (.ldVxDt x) s = .next t ∧ t.readV x = s.dt ∧ KeepsAllBut [.reg x] s t) ∧
    (∃ t, exec (.ldDtVx x) s = .next t ∧ t.dt = s.readV x ∧ KeepsAllBut [.dt] s t) ∧
    ∃ t, exec (.ldStVx x) s = .next t ∧ t.st = s.readV x ∧ KeepsAllBut [.st] s t

/-- LD Vx, K (R174; decision D7): the least pressed key goes to V[x] at once, and with no key pressed
WAIT becomes x. -/
def Obligations.KeyWaitTakesTheLeastKeyOrParks : Prop :=
  ∀ (x : Reg) (s : State),
    (∀ k : Reg, s.keys[k] = true → (∀ j < k, s.keys[j] = false) →
      ∃ t, exec (.ldVxKey x) s = .next t ∧ (t.readV x).toNat = k.val ∧
        KeepsAllBut [.reg x] s t) ∧
    ((∀ k : Reg, s.keys[k] = false) →
      ∃ t, exec (.ldVxKey x) s = .next t ∧ t.wait = some x ∧ KeepsAllBut [.wait] s t)

/-! ### Display (46_display.md) -/

/-- CLS (R191): every pixel off, and nothing else but fb_written, which is high (60_exceptions.md R225,
decision D1; log 7). -/
def Obligations.ClsClearsEveryPixel : Prop :=
  decode 0x00E0 = .instr .cls ∧ ∀ s : State,
    ∃ t, exec .cls s = .next t ∧ (∀ r c, pixel t.fb r c = false) ∧ t.fbWritten = true ∧
      KeepsUnless (fun p => p = .fbWritten ∨ ∃ r c, p = .pixel r c) s t

/-- DRW Vx, Vy, n (R192 to R194; decision D6: the operands are read before VF is written): a pixel is
toggled exactly when the sprite covers it; VF is 1 exactly when a toggled pixel was on; all else but
fb_written is unchanged. fb_written is high (60_exceptions.md R225, D1), for n = 0 too, which is the
model's choice (log 7). MemoryBounds when the sprite runs past 0xFFF (R215); n = 0 never faults. -/
def Obligations.DrawXorsTheSprite : Prop :=
  ∀ (x y : Reg) (n : Nibble) (s : State),
    (n.val = 0 ∨ s.i.toNat + n.val ≤ 4096 → ∃ t, exec (.drw x y n) s = .next t ∧
      (∀ r c, SpriteCovers s x y n r c → pixel t.fb r c = !pixel s.fb r c) ∧
      (∀ r c, ¬ SpriteCovers s x y n r c → pixel t.fb r c = pixel s.fb r c) ∧
      ((∃ r c, SpriteCovers s x y n r c ∧ pixel s.fb r c = true) → t.readV 15 = 1) ∧
      ((¬ ∃ r c, SpriteCovers s x y n r c ∧ pixel s.fb r c = true) → t.readV 15 = 0) ∧
      t.fbWritten = true ∧
      KeepsUnless (fun p => p = .reg 15 ∨ p = .fbWritten ∨ ∃ r c, p = .pixel r c) s t) ∧
    (0 < n.val → 4096 < s.i.toNat + n.val → ∃ t, exec (.drw x y n) s = .next t ∧
      RaisedFrom s t .memoryBounds (wordXYN 0xD x y n) (some (max s.i.toNat 4096)))

/-- Double draw (R195's first sentence, derived there): a second draw with the same Vx, Vy, I, n and
sprite bytes restores every pixel. On every screen its VF is 1 exactly when a pixel the sprite covers was
off before the first draw, else 0: what R192 and R194 give in place of R195's second sentence (log 15);
on a clear screen that is when the sprite has a set bit. -/
def Obligations.DrawingTwiceRestoresTheScreen : Prop :=
  ∀ (x y : Reg) (n : Nibble) (s t u : State), n.val = 0 ∨ s.i.toNat + n.val ≤ 4096 →
    exec (.drw x y n) s = .next t →
    u.readV x = s.readV x → u.readV y = s.readV y → u.i = s.i → (∀ r c, Keeps t u (.pixel r c)) →
    (∀ row < n.val, Keeps s u (.byte (s.i.toNat + row))) →
    ∃ w, exec (.drw x y n) u = .next w ∧ (∀ r c, pixel w.fb r c = pixel s.fb r c) ∧
      (w.readV 15 = 1 ↔ ∃ r c, SpriteCovers s x y n r c ∧ pixel s.fb r c = false) ∧
      (w.readV 15 = 0 ∨ w.readV 15 = 1) ∧
      ((∀ r c, pixel s.fb r c = false) →
        (w.readV 15 = 1 ↔ ∃ row < n.val, Memory.byteAt s.mem (s.i.toNat + row) ≠ 0))

/-- R195's second sentence read word for word, for ANY framebuffer: a second identical draw sets VF = 1
whenever the sprite has a set bit. Expected to FAIL: where every covered pixel was on, the first draw
turns it off and the second meets no pixel that is on, so R192 and R194 give VF = 0 (log 15). -/
def Obligations.SecondDrawOfASetBitAlwaysCollides : Prop :=
  ∀ (x y : Reg) (n : Nibble) (s t u w : State), s.i.toNat + n.val ≤ 4096 →
    exec (.drw x y n) s = .next t →
    u.readV x = s.readV x → u.readV y = s.readV y → u.i = s.i → (∀ r c, Keeps t u (.pixel r c)) →
    (∀ row < n.val, Keeps s u (.byte (s.i.toNat + row))) →
    (∃ row < n.val, Memory.byteAt s.mem (s.i.toNat + row) ≠ 0) →
    exec (.drw x y n) u = .next w → w.readV 15 = 1

/-- Pixel count (R196, derived there): a draw changes exactly as many pixels as its n sprite bytes have
set bits. -/
def Obligations.DrawTogglesAsManyPixelsAsSetBits : Prop :=
  ∀ (x y : Reg) (n : Nibble) (s t : State), n.val = 0 ∨ s.i.toNat + n.val ≤ 4096 →
    exec (.drw x y n) s = .next t →
    (Finset.univ.filter fun p : Fin 32 × Fin 64 =>
      pixel t.fb p.1 p.2 ≠ pixel s.fb p.1 p.2).card =
    (Finset.univ.filter fun q : Fin n.val × Fin 8 =>
      (Memory.byteAt s.mem (s.i.toNat + q.1.val)).getLsbD q.2.val = true).card

/-! ### Whole-machine rules -/

/-- The legal states hold at reset and after every construction. -/
def Obligations.ConstructedStatesAreLegal : Prop :=
  State.reset.Legal ∧
  ∀ (program : List Byte) (keys : Keypad) (input : List Keypad) (s : State),
    construct program keys input = .next s → s.Legal

/-- Every tick keeps the legal states: 0 ≤ SP ≤ 16 (10_state.md R26), memory in canonical form, FAULT
true of the state it stopped in (60_exceptions.md R216, R218), and no stopped core waiting. -/
def Obligations.EveryTickKeepsTheStateLegal : Prop :=
  ∀ s t : State, s.Legal → step s = .next t → t.Legal

/-- From a legal state a tick always answers a next state: no stop and no refusal
(40_engine_cycle.md R73, R74). -/
def Obligations.LegalStatesNeverStop : Prop :=
  ∀ s : State, s.Legal → ∃ t, step s = .next t

/-- A session runs for as many ticks as the host likes, whatever the program, the keys and the random
bytes (R74: "Terminal condition: none intrinsic"). -/
def Obligations.EverySessionRunsForever : Prop :=
  ∀ s : State, Reachable s → ∀ n : Nat, ∃ t, core.run n s = .next t ∧ Reachable t ∧ t.Legal

/-- Who writes what (10_state.md R20, the "written by" column; R34, R36): a completing instruction
changes only the parts its row lists. -/
def Obligations.OnlyListedInstructionsWriteEachPart : Prop :=
  ∀ (i : Instr) (s t : State), Memory.wf s.mem = true → s.fault = none → exec i s = .next t →
    t.fault = none → KeepsUnless (MayWrite i s) s t

/-- VF (10_state.md R22): the instructions that define a flag leave 0 or 1 in VF, and no other
instruction changes VF but as a named destination. -/
def Obligations.OnlyFlagInstructionsTouchVfAsASideEffect : Prop :=
  ∀ (i : Instr) (s t : State), s.fault = none → exec i s = .next t → t.fault = none →
    (definesFlag i = true → t.readV 15 = 0 ∨ t.readV 15 = 1) ∧
    (definesFlag i = false → ¬ hasDestination i 15 → t.readV 15 = s.readV 15)

/-- ST (10_state.md R28) has no effect on CORE beyond its own countdown: two states that differ in ST
alone tick to states that differ in ST alone. -/
def Obligations.SoundTimerAffectsOnlyItself : Prop :=
  ∀ (s t : State) (b : Byte), step s = .next t →
    ∃ u, step (s.writeSt b) = .next u ∧ KeepsAllBut [.st] t u

/-- The parts are the whole state: two states that read the same in every part, with memories in
canonical form, are equal (log 8). -/
def Obligations.StatesThatReadTheSameAreEqual : Prop :=
  ∀ s t : State, Memory.wf s.mem = true → Memory.wf t.mem = true → KeepsAllBut [] s t → t = s

/-- `withFetchWord` (the host's; the model's choice, log 9): the very next tick fetches and runs the
word, and what it changes is FAULT, WAIT, a PC that cannot fetch, and the word's two bytes. -/
def Obligations.PlacedWordRunsNext : Prop :=
  ∀ (s : State) (w : Nat) (i : Instr), Memory.wf s.mem = true → w < 65536 →
    decodeTableWord 16 w = some i →
    let u := s.withFetchWord 16 w
    decode (BitVec.ofNat 16 w) = .instr i ∧ step u = finishTick (exec i u.beginTick.advance) ∧
    (s.pc.toNat + 1 < 4096 → u.pc = s.pc) ∧
    KeepsUnless (fun p => p ∈ [.pc, .fault, .wait, .byte u.pc.toNat, .byte (u.pc.toNat + 1)]) s u
end

