-- ==== Sys2Proof/Laws/Decode.lean ====
section
/-! SUPPORT. The fields of a word and the words of the three layouts, as arithmetic on their values
(30_encoding.md R54 to R56): what the decoder and the encoder do, with no bit left in a concatenation. -/

namespace Sys2Proof

theorem toNat_append_eq {m n : Nat} (a : BitVec m) (b : BitVec n) :
    (a ++ b).toNat = a.toNat * 2 ^ n + b.toNat := by
  rw [BitVec.toNat_append, Nat.shiftLeft_eq, Nat.mul_comm, ← Nat.two_pow_add_eq_or_of_lt b.isLt]

/-! ### Words of a layout -/

theorem toNat_encNNN (b : BitVec 4) (nnn : Addr12) :
    (encNNN b nnn).toNat = b.toNat * 4096 + nnn.toNat :=
  toNat_append_eq b nnn

theorem toNat_encXKK (b : BitVec 4) (x : Reg) (kk : Byte) :
    (encXKK b x kk).toNat = b.toNat * 4096 + x.val * 256 + kk.toNat := by
  refine (toNat_append_eq b (nibbleBits x ++ kk)).trans ?_
  rw [toNat_append_eq]
  simp
  ring

theorem toNat_encXYN (b : BitVec 4) (x y : Reg) (n : Nibble) :
    (encXYN b x y n).toNat = b.toNat * 4096 + x.val * 256 + y.val * 16 + n.val := by
  refine (toNat_append_eq b (nibbleBits x ++ (nibbleBits y ++ nibbleBits n))).trans ?_
  rw [toNat_append_eq, toNat_append_eq]
  simp
  ring

theorem toNat_opcodeOfBytes (a b : Byte) : (opcodeOfBytes a b).toNat = 256 * a.toNat + b.toNat := by
  refine (toNat_append_eq a b).trans ?_
  omega

/-- The two bytes of a word form it again (20_memory.md R38). -/
@[simp] theorem opcodeOfBytes_bytes (op : Word) : opcodeOfBytes (firstByte op) (secondByte op) = op := by
  apply BitVec.eq_of_toNat_eq
  have := op.isLt
  rw [toNat_opcodeOfBytes]
  simp [firstByte, secondByte, Nat.shiftRight_eq_div_pow]
  omega

/-! ### Fields of a word (R55) -/

theorem bandOf_eq (op : Word) : bandOf op = op.toNat / 4096 := by
  have := op.isLt
  simp [bandOf, Nat.shiftRight_eq_div_pow]
  omega

theorem val_fieldX (op : Word) : (fieldX op).val = op.toNat / 256 % 16 := by
  simp [fieldX, Nat.shiftRight_eq_div_pow]

theorem val_fieldY (op : Word) : (fieldY op).val = op.toNat / 16 % 16 := by
  simp [fieldY, Nat.shiftRight_eq_div_pow]

theorem val_fieldN (op : Word) : (fieldN op).val = op.toNat % 16 := by
  simp [fieldN]

theorem toNat_fieldKK (op : Word) : (fieldKK op).toNat = op.toNat % 256 := by
  simp [fieldKK]

theorem toNat_fieldNNN (op : Word) : (fieldNNN op).toNat = op.toNat % 4096 := by
  simp [fieldNNN]

section fields
variable (b : BitVec 4) (x y : Reg) (n : Nibble) (kk : Byte) (nnn : Addr12)

@[simp] theorem bandOf_encNNN : bandOf (encNNN b nnn) = b.toNat := by
  have := nnn.isLt
  rw [bandOf_eq, toNat_encNNN]
  omega

@[simp] theorem bandOf_encXKK : bandOf (encXKK b x kk) = b.toNat := by
  have := kk.isLt
  rw [bandOf_eq, toNat_encXKK]
  omega

@[simp] theorem bandOf_encXYN : bandOf (encXYN b x y n) = b.toNat := by
  rw [bandOf_eq, toNat_encXYN]
  omega

@[simp] theorem fieldNNN_encNNN : fieldNNN (encNNN b nnn) = nnn := by
  have := nnn.isLt
  apply BitVec.eq_of_toNat_eq
  rw [toNat_fieldNNN, toNat_encNNN]
  omega

@[simp] theorem fieldX_encXKK : fieldX (encXKK b x kk) = x := by
  have := kk.isLt
  apply Fin.ext
  rw [val_fieldX, toNat_encXKK]
  omega

@[simp] theorem fieldKK_encXKK : fieldKK (encXKK b x kk) = kk := by
  have := kk.isLt
  apply BitVec.eq_of_toNat_eq
  rw [toNat_fieldKK, toNat_encXKK]
  omega

@[simp] theorem fieldX_encXYN : fieldX (encXYN b x y n) = x := by
  apply Fin.ext
  rw [val_fieldX, toNat_encXYN]
  omega

@[simp] theorem fieldY_encXYN : fieldY (encXYN b x y n) = y := by
  apply Fin.ext
  rw [val_fieldY, toNat_encXYN]
  omega

@[simp] theorem fieldN_encXYN : fieldN (encXYN b x y n) = n := by
  apply Fin.ext
  rw [val_fieldN, toNat_encXYN]
  omega

/-! ### The nibble spelling of a word and its layout -/

theorem wordNNN_eq_encNNN : wordNNN b.toNat nnn = encNNN b nnn := by
  have := b.isLt
  have := nnn.isLt
  apply BitVec.eq_of_toNat_eq
  rw [toNat_encNNN]
  simp [wordNNN]
  omega

theorem wordXKK_eq_encXKK : wordXKK b.toNat x kk = encXKK b x kk := by
  have := b.isLt
  have := kk.isLt
  apply BitVec.eq_of_toNat_eq
  rw [toNat_encXKK]
  simp [wordXKK]
  omega

theorem wordXYN_eq_encXYN : wordXYN b.toNat x y n = encXYN b x y n := by
  have := b.isLt
  apply BitVec.eq_of_toNat_eq
  rw [toNat_encXYN]
  simp [wordXYN]
  omega

end fields

end Sys2Proof
end

