-- ==== Sys2Proof/Laws/Memory.lean ====
section
/-! SUPPORT. Memory: a read after a write, a write leaves every other byte alone, and every
operation keeps the canonical form. -/

namespace Sys2Proof.Machine.Memory

@[simp] theorem byteAt_nil (a : Nat) : byteAt [] a = initialByte a := rfl

/-- An address below every listed one reads as at construction. -/
theorem byteAt_of_wfAbove {m : Memory} {lo a : Nat} (h : wfAbove (some lo) m = true) (ha : a ≤ lo) :
    byteAt m a = initialByte a := by
  induction m generalizing lo with
  | nil => rfl
  | cons cell rest ih =>
    simp only [wfAbove, Option.all_some, Bool.and_eq_true, decide_eq_true_eq] at h
    have hlt := h.1.1.1
    have hne : cell.1 ≠ a := by omega
    simpa [byteAt, hne] using ih h.2 (by omega)

/-- The canonical form above a bound holds above every lower bound. -/
theorem wfAbove_mono {m : Memory} {lo lo' : Nat} (h : wfAbove (some lo) m = true) (hle : lo' ≤ lo) :
    wfAbove (some lo') m = true := by
  cases m with
  | nil => rfl
  | cons cell rest =>
    simp only [wfAbove, Option.all_some, Bool.and_eq_true, decide_eq_true_eq] at h ⊢
    exact ⟨⟨⟨by omega, h.1.1.2⟩, h.1.2⟩, h.2⟩

theorem byteAt_consCell {rest : Memory} {a : Nat} (b : Byte) (x : Nat)
    (h : byteAt rest a = initialByte a) :
    byteAt (consCell a b rest) x = if x = a then b else byteAt rest x := by
  unfold consCell
  split
  · next hb =>
    split
    · next hx => subst hx; rw [h, hb]
    · rfl
  · by_cases hx : x = a
    · subst hx; simp [byteAt]
    · have : a ≠ x := fun e => hx e.symm
      simp [byteAt, hx, this]

/-- A read after a write, in a memory whose entries lie above `lo`. -/
theorem byteAt_put_above {m : Memory} {lo : Option Nat} (h : wfAbove lo m = true) (a : Nat) (b : Byte)
    (x : Nat) : byteAt (put m a b) x = if x = a then b else byteAt m x := by
  induction m generalizing lo with
  | nil => exact byteAt_consCell b x rfl
  | cons cell rest ih =>
    simp only [wfAbove, Bool.and_eq_true, decide_eq_true_eq] at h
    obtain ⟨⟨⟨-, hlt⟩, hne⟩, hrest⟩ := h
    unfold put
    split
    · next hac =>
      refine byteAt_consCell b x ?_
      have hca : cell.1 ≠ a := by omega
      simpa [byteAt, hca] using byteAt_of_wfAbove hrest (by omega)
    · split
      · next hac =>
        subst hac
        rw [byteAt_consCell b x (byteAt_of_wfAbove hrest (le_refl _))]
        split
        · rfl
        · next hx =>
          have : cell.1 ≠ x := fun e => hx e.symm
          simp [byteAt, this]
      · next h1 h2 =>
        have hca : ∀ y, y = a → cell.1 ≠ y := by intro y hy; omega
        by_cases hx : cell.1 = x
        · have : x ≠ a := by omega
          simp [byteAt, hx, this]
        · simp [byteAt, hx, ih hrest]

/-- A read after a write: the written byte at that address, every other byte as before
(20_memory.md R45, R51). -/
theorem byteAt_put {m : Memory} (h : wf m = true) (a : Nat) (b : Byte) (x : Nat) :
    byteAt (put m a b) x = if x = a then b else byteAt m x :=
  byteAt_put_above h a b x

theorem wfAbove_consCell {rest : Memory} {lo : Option Nat} {a : Nat} {b : Byte}
    (hlo : lo.all (· < a) = true) (ha : a < Config.memSize) (h : wfAbove (some a) rest = true) :
    wfAbove lo (consCell a b rest) = true := by
  unfold consCell
  split
  · cases lo with
    | some l => exact wfAbove_mono h (by simpa using Nat.le_of_lt (by simpa using hlo))
    | none =>
      cases rest with
      | nil => rfl
      | cons cell rest =>
        simp only [wfAbove, Bool.and_eq_true] at h ⊢
        exact ⟨⟨⟨by simp, h.1.1.2⟩, h.1.2⟩, h.2⟩
  · next hb =>
    simp only [wfAbove, Bool.and_eq_true, decide_eq_true_eq]
    exact ⟨⟨⟨hlo, ha⟩, by simpa using hb⟩, h⟩

theorem wfAbove_put {m : Memory} {lo : Option Nat} {a : Nat} (b : Byte) (h : wfAbove lo m = true)
    (hlo : lo.all (· < a) = true) (ha : a < Config.memSize) : wfAbove lo (put m a b) = true := by
  induction m generalizing lo with
  | nil => exact wfAbove_consCell hlo ha rfl
  | cons cell rest ih =>
    have h' := h
    simp only [wfAbove, Bool.and_eq_true, decide_eq_true_eq] at h'
    obtain ⟨⟨⟨hc, hlt⟩, hne⟩, hrest⟩ := h'
    unfold put
    split
    · next hac =>
      refine wfAbove_consCell hlo ha ?_
      simp only [wfAbove, Bool.and_eq_true, decide_eq_true_eq]
      exact ⟨⟨⟨by simpa using hac, hlt⟩, hne⟩, hrest⟩
    · split
      · next hac => subst hac; exact wfAbove_consCell hlo ha hrest
      · next h1 h2 =>
        simp only [wfAbove, Bool.and_eq_true, decide_eq_true_eq]
        exact ⟨⟨⟨hc, hlt⟩, hne⟩, ih hrest (by simp; omega)⟩

/-- A write below 4096 keeps the canonical form. -/
theorem wf_put {m : Memory} {a : Nat} (b : Byte) (h : wf m = true) (ha : a < Config.memSize) :
    wf (put m a b) = true :=
  wfAbove_put b h rfl ha

theorem wf_putBytes {m : Memory} {base : Nat} {bs : List Byte} (h : wf m = true)
    (hb : base + bs.length ≤ Config.memSize) : wf (putBytes m base bs) = true := by
  induction bs generalizing m base with
  | nil => exact h
  | cons b rest ih =>
    simp only [List.length_cons] at hb
    exact ih (wf_put b h (by omega)) (by omega)

/-- A run of bytes reads back, and every byte outside the run is as before. -/
theorem byteAt_putBytes {m : Memory} {base : Nat} {bs : List Byte} (h : wf m = true)
    (hb : base + bs.length ≤ Config.memSize) (x : Nat) :
    byteAt (putBytes m base bs) x =
      if base ≤ x then bs.getD (x - base) (byteAt m x) else byteAt m x := by
  induction bs generalizing m base with
  | nil => simp [putBytes]
  | cons b rest ih =>
    simp only [List.length_cons] at hb
    rw [putBytes, ih (wf_put b h (by omega)) (by omega), byteAt_put h]
    rcases Nat.lt_trichotomy x base with hx | hx | hx
    · have h1 : ¬ base + 1 ≤ x := by omega
      have h2 : ¬ base ≤ x := by omega
      have h3 : x ≠ base := by omega
      simp [h1, h2, h3]
    · subst hx; simp
    · obtain ⟨d, rfl⟩ : ∃ d, x = base + 1 + d := ⟨x - (base + 1), by omega⟩
      have e : base + 1 + d - base = d + 1 := by omega
      have h2 : base ≤ base + 1 + d := by omega
      have h3 : base + 1 + d ≠ base := by omega
      simp [e, h2, h3]

@[simp] theorem length_bytesFrom (m : Memory) (base len : Nat) : (bytesFrom m base len).length = len := by
  induction len generalizing base with
  | zero => rfl
  | succ n ih => simp [bytesFrom, ih]

/-- The k-th byte of a run is MEM[base + k]. -/
theorem getD_bytesFrom (m : Memory) (base len k : Nat) (d : Byte) :
    (bytesFrom m base len).getD k d = if k < len then byteAt m (base + k) else d := by
  induction len generalizing base k with
  | zero => simp [bytesFrom]
  | succ n ih =>
    cases k with
    | zero => simp [bytesFrom]
    | succ k =>
      have e : base + 1 + k = base + (k + 1) := by omega
      rw [bytesFrom, List.getD_cons_succ, ih, e]
      simp

end Sys2Proof.Machine.Memory
end

