-- ==== Sys2Proof/Laws/State.lean ====
section
/-! SUPPORT. One lemma per field per update of `State`, each true by `rfl`, so that no later proof
unfolds a record update. -/

namespace Sys2Proof.Machine

variable (s : State)

/-! ### writeV -/

@[simp] theorem writeV_v (x : Reg) (b : Byte) : (s.writeV x b).v = s.v.set x b := rfl
@[simp] theorem writeV_i (x : Reg) (b : Byte) : (s.writeV x b).i = s.i := rfl
@[simp] theorem writeV_pc (x : Reg) (b : Byte) : (s.writeV x b).pc = s.pc := rfl
@[simp] theorem writeV_sp (x : Reg) (b : Byte) : (s.writeV x b).sp = s.sp := rfl
@[simp] theorem writeV_stack (x : Reg) (b : Byte) : (s.writeV x b).stack = s.stack := rfl
@[simp] theorem writeV_dt (x : Reg) (b : Byte) : (s.writeV x b).dt = s.dt := rfl
@[simp] theorem writeV_st (x : Reg) (b : Byte) : (s.writeV x b).st = s.st := rfl
@[simp] theorem writeV_wait (x : Reg) (b : Byte) : (s.writeV x b).wait = s.wait := rfl
@[simp] theorem writeV_fault (x : Reg) (b : Byte) : (s.writeV x b).fault = s.fault := rfl
@[simp] theorem writeV_mem (x : Reg) (b : Byte) : (s.writeV x b).mem = s.mem := rfl
@[simp] theorem writeV_fb (x : Reg) (b : Byte) : (s.writeV x b).fb = s.fb := rfl
@[simp] theorem writeV_keys (x : Reg) (b : Byte) : (s.writeV x b).keys = s.keys := rfl
@[simp] theorem writeV_fbWritten (x : Reg) (b : Byte) : (s.writeV x b).fbWritten = s.fbWritten := rfl
@[simp] theorem writeV_draws (x : Reg) (b : Byte) : (s.writeV x b).draws = s.draws := rfl
@[simp] theorem writeV_keyInput (x : Reg) (b : Byte) : (s.writeV x b).keyInput = s.keyInput := rfl

/-! ### writeI -/

@[simp] theorem writeI_v (w : Word) : (s.writeI w).v = s.v := rfl
@[simp] theorem writeI_i (w : Word) : (s.writeI w).i = w := rfl
@[simp] theorem writeI_pc (w : Word) : (s.writeI w).pc = s.pc := rfl
@[simp] theorem writeI_sp (w : Word) : (s.writeI w).sp = s.sp := rfl
@[simp] theorem writeI_stack (w : Word) : (s.writeI w).stack = s.stack := rfl
@[simp] theorem writeI_dt (w : Word) : (s.writeI w).dt = s.dt := rfl
@[simp] theorem writeI_st (w : Word) : (s.writeI w).st = s.st := rfl
@[simp] theorem writeI_wait (w : Word) : (s.writeI w).wait = s.wait := rfl
@[simp] theorem writeI_fault (w : Word) : (s.writeI w).fault = s.fault := rfl
@[simp] theorem writeI_mem (w : Word) : (s.writeI w).mem = s.mem := rfl
@[simp] theorem writeI_fb (w : Word) : (s.writeI w).fb = s.fb := rfl
@[simp] theorem writeI_keys (w : Word) : (s.writeI w).keys = s.keys := rfl
@[simp] theorem writeI_fbWritten (w : Word) : (s.writeI w).fbWritten = s.fbWritten := rfl
@[simp] theorem writeI_draws (w : Word) : (s.writeI w).draws = s.draws := rfl
@[simp] theorem writeI_keyInput (w : Word) : (s.writeI w).keyInput = s.keyInput := rfl

/-! ### writePc -/

@[simp] theorem writePc_v (w : Word) : (s.writePc w).v = s.v := rfl
@[simp] theorem writePc_i (w : Word) : (s.writePc w).i = s.i := rfl
@[simp] theorem writePc_pc (w : Word) : (s.writePc w).pc = w := rfl
@[simp] theorem writePc_sp (w : Word) : (s.writePc w).sp = s.sp := rfl
@[simp] theorem writePc_stack (w : Word) : (s.writePc w).stack = s.stack := rfl
@[simp] theorem writePc_dt (w : Word) : (s.writePc w).dt = s.dt := rfl
@[simp] theorem writePc_st (w : Word) : (s.writePc w).st = s.st := rfl
@[simp] theorem writePc_wait (w : Word) : (s.writePc w).wait = s.wait := rfl
@[simp] theorem writePc_fault (w : Word) : (s.writePc w).fault = s.fault := rfl
@[simp] theorem writePc_mem (w : Word) : (s.writePc w).mem = s.mem := rfl
@[simp] theorem writePc_fb (w : Word) : (s.writePc w).fb = s.fb := rfl
@[simp] theorem writePc_keys (w : Word) : (s.writePc w).keys = s.keys := rfl
@[simp] theorem writePc_fbWritten (w : Word) : (s.writePc w).fbWritten = s.fbWritten := rfl
@[simp] theorem writePc_draws (w : Word) : (s.writePc w).draws = s.draws := rfl
@[simp] theorem writePc_keyInput (w : Word) : (s.writePc w).keyInput = s.keyInput := rfl

/-! ### writeDt -/

@[simp] theorem writeDt_v (b : Byte) : (s.writeDt b).v = s.v := rfl
@[simp] theorem writeDt_i (b : Byte) : (s.writeDt b).i = s.i := rfl
@[simp] theorem writeDt_pc (b : Byte) : (s.writeDt b).pc = s.pc := rfl
@[simp] theorem writeDt_sp (b : Byte) : (s.writeDt b).sp = s.sp := rfl
@[simp] theorem writeDt_stack (b : Byte) : (s.writeDt b).stack = s.stack := rfl
@[simp] theorem writeDt_dt (b : Byte) : (s.writeDt b).dt = b := rfl
@[simp] theorem writeDt_st (b : Byte) : (s.writeDt b).st = s.st := rfl
@[simp] theorem writeDt_wait (b : Byte) : (s.writeDt b).wait = s.wait := rfl
@[simp] theorem writeDt_fault (b : Byte) : (s.writeDt b).fault = s.fault := rfl
@[simp] theorem writeDt_mem (b : Byte) : (s.writeDt b).mem = s.mem := rfl
@[simp] theorem writeDt_fb (b : Byte) : (s.writeDt b).fb = s.fb := rfl
@[simp] theorem writeDt_keys (b : Byte) : (s.writeDt b).keys = s.keys := rfl
@[simp] theorem writeDt_fbWritten (b : Byte) : (s.writeDt b).fbWritten = s.fbWritten := rfl
@[simp] theorem writeDt_draws (b : Byte) : (s.writeDt b).draws = s.draws := rfl
@[simp] theorem writeDt_keyInput (b : Byte) : (s.writeDt b).keyInput = s.keyInput := rfl

/-! ### writeSt -/

@[simp] theorem writeSt_v (b : Byte) : (s.writeSt b).v = s.v := rfl
@[simp] theorem writeSt_i (b : Byte) : (s.writeSt b).i = s.i := rfl
@[simp] theorem writeSt_pc (b : Byte) : (s.writeSt b).pc = s.pc := rfl
@[simp] theorem writeSt_sp (b : Byte) : (s.writeSt b).sp = s.sp := rfl
@[simp] theorem writeSt_stack (b : Byte) : (s.writeSt b).stack = s.stack := rfl
@[simp] theorem writeSt_dt (b : Byte) : (s.writeSt b).dt = s.dt := rfl
@[simp] theorem writeSt_st (b : Byte) : (s.writeSt b).st = b := rfl
@[simp] theorem writeSt_wait (b : Byte) : (s.writeSt b).wait = s.wait := rfl
@[simp] theorem writeSt_fault (b : Byte) : (s.writeSt b).fault = s.fault := rfl
@[simp] theorem writeSt_mem (b : Byte) : (s.writeSt b).mem = s.mem := rfl
@[simp] theorem writeSt_fb (b : Byte) : (s.writeSt b).fb = s.fb := rfl
@[simp] theorem writeSt_keys (b : Byte) : (s.writeSt b).keys = s.keys := rfl
@[simp] theorem writeSt_fbWritten (b : Byte) : (s.writeSt b).fbWritten = s.fbWritten := rfl
@[simp] theorem writeSt_draws (b : Byte) : (s.writeSt b).draws = s.draws := rfl
@[simp] theorem writeSt_keyInput (b : Byte) : (s.writeSt b).keyInput = s.keyInput := rfl

/-! ### writeWait -/

@[simp] theorem writeWait_v (w : Option Reg) : (s.writeWait w).v = s.v := rfl
@[simp] theorem writeWait_i (w : Option Reg) : (s.writeWait w).i = s.i := rfl
@[simp] theorem writeWait_pc (w : Option Reg) : (s.writeWait w).pc = s.pc := rfl
@[simp] theorem writeWait_sp (w : Option Reg) : (s.writeWait w).sp = s.sp := rfl
@[simp] theorem writeWait_stack (w : Option Reg) : (s.writeWait w).stack = s.stack := rfl
@[simp] theorem writeWait_dt (w : Option Reg) : (s.writeWait w).dt = s.dt := rfl
@[simp] theorem writeWait_st (w : Option Reg) : (s.writeWait w).st = s.st := rfl
@[simp] theorem writeWait_wait (w : Option Reg) : (s.writeWait w).wait = w := rfl
@[simp] theorem writeWait_fault (w : Option Reg) : (s.writeWait w).fault = s.fault := rfl
@[simp] theorem writeWait_mem (w : Option Reg) : (s.writeWait w).mem = s.mem := rfl
@[simp] theorem writeWait_fb (w : Option Reg) : (s.writeWait w).fb = s.fb := rfl
@[simp] theorem writeWait_keys (w : Option Reg) : (s.writeWait w).keys = s.keys := rfl
@[simp] theorem writeWait_fbWritten (w : Option Reg) : (s.writeWait w).fbWritten = s.fbWritten := rfl
@[simp] theorem writeWait_draws (w : Option Reg) : (s.writeWait w).draws = s.draws := rfl
@[simp] theorem writeWait_keyInput (w : Option Reg) : (s.writeWait w).keyInput = s.keyInput := rfl

/-! ### pushPc -/

@[simp] theorem pushPc_v : s.pushPc.v = s.v := rfl
@[simp] theorem pushPc_i : s.pushPc.i = s.i := rfl
@[simp] theorem pushPc_pc : s.pushPc.pc = s.pc := rfl
@[simp] theorem pushPc_sp : s.pushPc.sp = s.sp + 1 := rfl
@[simp] theorem pushPc_stack : s.pushPc.stack = s.stack.setIfInBounds s.sp.toNat s.pc := rfl
@[simp] theorem pushPc_dt : s.pushPc.dt = s.dt := rfl
@[simp] theorem pushPc_st : s.pushPc.st = s.st := rfl
@[simp] theorem pushPc_wait : s.pushPc.wait = s.wait := rfl
@[simp] theorem pushPc_fault : s.pushPc.fault = s.fault := rfl
@[simp] theorem pushPc_mem : s.pushPc.mem = s.mem := rfl
@[simp] theorem pushPc_fb : s.pushPc.fb = s.fb := rfl
@[simp] theorem pushPc_keys : s.pushPc.keys = s.keys := rfl
@[simp] theorem pushPc_fbWritten : s.pushPc.fbWritten = s.fbWritten := rfl
@[simp] theorem pushPc_draws : s.pushPc.draws = s.draws := rfl
@[simp] theorem pushPc_keyInput : s.pushPc.keyInput = s.keyInput := rfl

/-! ### popPc -/

@[simp] theorem popPc_v (w : Word) : (s.popPc w).v = s.v := rfl
@[simp] theorem popPc_i (w : Word) : (s.popPc w).i = s.i := rfl
@[simp] theorem popPc_pc (w : Word) : (s.popPc w).pc = w := rfl
@[simp] theorem popPc_sp (w : Word) : (s.popPc w).sp = s.sp - 1 := rfl
@[simp] theorem popPc_stack (w : Word) : (s.popPc w).stack = s.stack := rfl
@[simp] theorem popPc_dt (w : Word) : (s.popPc w).dt = s.dt := rfl
@[simp] theorem popPc_st (w : Word) : (s.popPc w).st = s.st := rfl
@[simp] theorem popPc_wait (w : Word) : (s.popPc w).wait = s.wait := rfl
@[simp] theorem popPc_fault (w : Word) : (s.popPc w).fault = s.fault := rfl
@[simp] theorem popPc_mem (w : Word) : (s.popPc w).mem = s.mem := rfl
@[simp] theorem popPc_fb (w : Word) : (s.popPc w).fb = s.fb := rfl
@[simp] theorem popPc_keys (w : Word) : (s.popPc w).keys = s.keys := rfl
@[simp] theorem popPc_fbWritten (w : Word) : (s.popPc w).fbWritten = s.fbWritten := rfl
@[simp] theorem popPc_draws (w : Word) : (s.popPc w).draws = s.draws := rfl
@[simp] theorem popPc_keyInput (w : Word) : (s.popPc w).keyInput = s.keyInput := rfl

/-! ### storeBytes -/

@[simp] theorem storeBytes_v (a : Nat) (bs : List Byte) : (s.storeBytes a bs).v = s.v := rfl
@[simp] theorem storeBytes_i (a : Nat) (bs : List Byte) : (s.storeBytes a bs).i = s.i := rfl
@[simp] theorem storeBytes_pc (a : Nat) (bs : List Byte) : (s.storeBytes a bs).pc = s.pc := rfl
@[simp] theorem storeBytes_sp (a : Nat) (bs : List Byte) : (s.storeBytes a bs).sp = s.sp := rfl
@[simp] theorem storeBytes_stack (a : Nat) (bs : List Byte) : (s.storeBytes a bs).stack = s.stack := rfl
@[simp] theorem storeBytes_dt (a : Nat) (bs : List Byte) : (s.storeBytes a bs).dt = s.dt := rfl
@[simp] theorem storeBytes_st (a : Nat) (bs : List Byte) : (s.storeBytes a bs).st = s.st := rfl
@[simp] theorem storeBytes_wait (a : Nat) (bs : List Byte) : (s.storeBytes a bs).wait = s.wait := rfl
@[simp] theorem storeBytes_fault (a : Nat) (bs : List Byte) : (s.storeBytes a bs).fault = s.fault := rfl
@[simp] theorem storeBytes_mem (a : Nat) (bs : List Byte) : (s.storeBytes a bs).mem = Memory.putBytes s.mem a bs := rfl
@[simp] theorem storeBytes_fb (a : Nat) (bs : List Byte) : (s.storeBytes a bs).fb = s.fb := rfl
@[simp] theorem storeBytes_keys (a : Nat) (bs : List Byte) : (s.storeBytes a bs).keys = s.keys := rfl
@[simp] theorem storeBytes_fbWritten (a : Nat) (bs : List Byte) : (s.storeBytes a bs).fbWritten = s.fbWritten := rfl
@[simp] theorem storeBytes_draws (a : Nat) (bs : List Byte) : (s.storeBytes a bs).draws = s.draws := rfl
@[simp] theorem storeBytes_keyInput (a : Nat) (bs : List Byte) : (s.storeBytes a bs).keyInput = s.keyInput := rfl

/-! ### writeFirstV -/

@[simp] theorem writeFirstV_i (bs : List Byte) : (s.writeFirstV bs).i = s.i := rfl
@[simp] theorem writeFirstV_pc (bs : List Byte) : (s.writeFirstV bs).pc = s.pc := rfl
@[simp] theorem writeFirstV_sp (bs : List Byte) : (s.writeFirstV bs).sp = s.sp := rfl
@[simp] theorem writeFirstV_stack (bs : List Byte) : (s.writeFirstV bs).stack = s.stack := rfl
@[simp] theorem writeFirstV_dt (bs : List Byte) : (s.writeFirstV bs).dt = s.dt := rfl
@[simp] theorem writeFirstV_st (bs : List Byte) : (s.writeFirstV bs).st = s.st := rfl
@[simp] theorem writeFirstV_wait (bs : List Byte) : (s.writeFirstV bs).wait = s.wait := rfl
@[simp] theorem writeFirstV_fault (bs : List Byte) : (s.writeFirstV bs).fault = s.fault := rfl
@[simp] theorem writeFirstV_mem (bs : List Byte) : (s.writeFirstV bs).mem = s.mem := rfl
@[simp] theorem writeFirstV_fb (bs : List Byte) : (s.writeFirstV bs).fb = s.fb := rfl
@[simp] theorem writeFirstV_keys (bs : List Byte) : (s.writeFirstV bs).keys = s.keys := rfl
@[simp] theorem writeFirstV_fbWritten (bs : List Byte) : (s.writeFirstV bs).fbWritten = s.fbWritten := rfl
@[simp] theorem writeFirstV_draws (bs : List Byte) : (s.writeFirstV bs).draws = s.draws := rfl
@[simp] theorem writeFirstV_keyInput (bs : List Byte) : (s.writeFirstV bs).keyInput = s.keyInput := rfl

/-! ### takeFault -/

@[simp] theorem takeFault_v (r : FaultRecord) : (s.takeFault r).v = s.v := rfl
@[simp] theorem takeFault_i (r : FaultRecord) : (s.takeFault r).i = s.i := rfl
@[simp] theorem takeFault_pc (r : FaultRecord) : (s.takeFault r).pc = r.pc0 := rfl
@[simp] theorem takeFault_sp (r : FaultRecord) : (s.takeFault r).sp = s.sp := rfl
@[simp] theorem takeFault_stack (r : FaultRecord) : (s.takeFault r).stack = s.stack := rfl
@[simp] theorem takeFault_dt (r : FaultRecord) : (s.takeFault r).dt = s.dt := rfl
@[simp] theorem takeFault_st (r : FaultRecord) : (s.takeFault r).st = s.st := rfl
@[simp] theorem takeFault_wait (r : FaultRecord) : (s.takeFault r).wait = s.wait := rfl
@[simp] theorem takeFault_fault (r : FaultRecord) : (s.takeFault r).fault = some r := rfl
@[simp] theorem takeFault_mem (r : FaultRecord) : (s.takeFault r).mem = s.mem := rfl
@[simp] theorem takeFault_fb (r : FaultRecord) : (s.takeFault r).fb = s.fb := rfl
@[simp] theorem takeFault_keys (r : FaultRecord) : (s.takeFault r).keys = s.keys := rfl
@[simp] theorem takeFault_fbWritten (r : FaultRecord) : (s.takeFault r).fbWritten = s.fbWritten := rfl
@[simp] theorem takeFault_draws (r : FaultRecord) : (s.takeFault r).draws = s.draws := rfl
@[simp] theorem takeFault_keyInput (r : FaultRecord) : (s.takeFault r).keyInput = s.keyInput := rfl

/-! ### consumeRandom -/

@[simp] theorem consumeRandom_v : s.consumeRandom.v = s.v := rfl
@[simp] theorem consumeRandom_i : s.consumeRandom.i = s.i := rfl
@[simp] theorem consumeRandom_pc : s.consumeRandom.pc = s.pc := rfl
@[simp] theorem consumeRandom_sp : s.consumeRandom.sp = s.sp := rfl
@[simp] theorem consumeRandom_stack : s.consumeRandom.stack = s.stack := rfl
@[simp] theorem consumeRandom_dt : s.consumeRandom.dt = s.dt := rfl
@[simp] theorem consumeRandom_st : s.consumeRandom.st = s.st := rfl
@[simp] theorem consumeRandom_wait : s.consumeRandom.wait = s.wait := rfl
@[simp] theorem consumeRandom_fault : s.consumeRandom.fault = s.fault := rfl
@[simp] theorem consumeRandom_mem : s.consumeRandom.mem = s.mem := rfl
@[simp] theorem consumeRandom_fb : s.consumeRandom.fb = s.fb := rfl
@[simp] theorem consumeRandom_keys : s.consumeRandom.keys = s.keys := rfl
@[simp] theorem consumeRandom_fbWritten : s.consumeRandom.fbWritten = s.fbWritten := rfl
@[simp] theorem consumeRandom_draws : s.consumeRandom.draws = s.draws + 1 := rfl
@[simp] theorem consumeRandom_keyInput : s.consumeRandom.keyInput = s.keyInput := rfl

/-! ### writeFb -/

@[simp] theorem writeFb_v (fb : Framebuffer) : (s.writeFb fb).v = s.v := rfl
@[simp] theorem writeFb_i (fb : Framebuffer) : (s.writeFb fb).i = s.i := rfl
@[simp] theorem writeFb_pc (fb : Framebuffer) : (s.writeFb fb).pc = s.pc := rfl
@[simp] theorem writeFb_sp (fb : Framebuffer) : (s.writeFb fb).sp = s.sp := rfl
@[simp] theorem writeFb_stack (fb : Framebuffer) : (s.writeFb fb).stack = s.stack := rfl
@[simp] theorem writeFb_dt (fb : Framebuffer) : (s.writeFb fb).dt = s.dt := rfl
@[simp] theorem writeFb_st (fb : Framebuffer) : (s.writeFb fb).st = s.st := rfl
@[simp] theorem writeFb_wait (fb : Framebuffer) : (s.writeFb fb).wait = s.wait := rfl
@[simp] theorem writeFb_fault (fb : Framebuffer) : (s.writeFb fb).fault = s.fault := rfl
@[simp] theorem writeFb_mem (fb : Framebuffer) : (s.writeFb fb).mem = s.mem := rfl
@[simp] theorem writeFb_fb (fb : Framebuffer) : (s.writeFb fb).fb = fb := rfl
@[simp] theorem writeFb_keys (fb : Framebuffer) : (s.writeFb fb).keys = s.keys := rfl
@[simp] theorem writeFb_fbWritten (fb : Framebuffer) : (s.writeFb fb).fbWritten = true := rfl
@[simp] theorem writeFb_draws (fb : Framebuffer) : (s.writeFb fb).draws = s.draws := rfl
@[simp] theorem writeFb_keyInput (fb : Framebuffer) : (s.writeFb fb).keyInput = s.keyInput := rfl

/-! ### countTimers -/

@[simp] theorem countTimers_v : s.countTimers.v = s.v := rfl
@[simp] theorem countTimers_i : s.countTimers.i = s.i := rfl
@[simp] theorem countTimers_pc : s.countTimers.pc = s.pc := rfl
@[simp] theorem countTimers_sp : s.countTimers.sp = s.sp := rfl
@[simp] theorem countTimers_stack : s.countTimers.stack = s.stack := rfl
@[simp] theorem countTimers_dt : s.countTimers.dt = countDown s.dt := rfl
@[simp] theorem countTimers_st : s.countTimers.st = countDown s.st := rfl
@[simp] theorem countTimers_wait : s.countTimers.wait = s.wait := rfl
@[simp] theorem countTimers_fault : s.countTimers.fault = s.fault := rfl
@[simp] theorem countTimers_mem : s.countTimers.mem = s.mem := rfl
@[simp] theorem countTimers_fb : s.countTimers.fb = s.fb := rfl
@[simp] theorem countTimers_keys : s.countTimers.keys = s.keys := rfl
@[simp] theorem countTimers_fbWritten : s.countTimers.fbWritten = s.fbWritten := rfl
@[simp] theorem countTimers_draws : s.countTimers.draws = s.draws := rfl
@[simp] theorem countTimers_keyInput : s.countTimers.keyInput = s.keyInput := rfl

/-! ### skip -/

@[simp] theorem skip_v : s.skip.v = s.v := rfl
@[simp] theorem skip_i : s.skip.i = s.i := rfl
@[simp] theorem skip_pc : s.skip.pc = s.pc + 2 := rfl
@[simp] theorem skip_sp : s.skip.sp = s.sp := rfl
@[simp] theorem skip_stack : s.skip.stack = s.stack := rfl
@[simp] theorem skip_dt : s.skip.dt = s.dt := rfl
@[simp] theorem skip_st : s.skip.st = s.st := rfl
@[simp] theorem skip_wait : s.skip.wait = s.wait := rfl
@[simp] theorem skip_fault : s.skip.fault = s.fault := rfl
@[simp] theorem skip_mem : s.skip.mem = s.mem := rfl
@[simp] theorem skip_fb : s.skip.fb = s.fb := rfl
@[simp] theorem skip_keys : s.skip.keys = s.keys := rfl
@[simp] theorem skip_fbWritten : s.skip.fbWritten = s.fbWritten := rfl
@[simp] theorem skip_draws : s.skip.draws = s.draws := rfl
@[simp] theorem skip_keyInput : s.skip.keyInput = s.keyInput := rfl

/-! ### advance -/

@[simp] theorem advance_v : s.advance.v = s.v := rfl
@[simp] theorem advance_i : s.advance.i = s.i := rfl
@[simp] theorem advance_pc : s.advance.pc = s.pc + 2 := rfl
@[simp] theorem advance_sp : s.advance.sp = s.sp := rfl
@[simp] theorem advance_stack : s.advance.stack = s.stack := rfl
@[simp] theorem advance_dt : s.advance.dt = s.dt := rfl
@[simp] theorem advance_st : s.advance.st = s.st := rfl
@[simp] theorem advance_wait : s.advance.wait = s.wait := rfl
@[simp] theorem advance_fault : s.advance.fault = s.fault := rfl
@[simp] theorem advance_mem : s.advance.mem = s.mem := rfl
@[simp] theorem advance_fb : s.advance.fb = s.fb := rfl
@[simp] theorem advance_keys : s.advance.keys = s.keys := rfl
@[simp] theorem advance_fbWritten : s.advance.fbWritten = s.fbWritten := rfl
@[simp] theorem advance_draws : s.advance.draws = s.draws := rfl
@[simp] theorem advance_keyInput : s.advance.keyInput = s.keyInput := rfl

end Sys2Proof.Machine
end

