-- ==== Sys2Proof/Laws/Registers.lean ====
section
/-! SUPPORT. What each shared operation over registers does, read through `readV`, and how `Keeps`
reads each part. -/

namespace Sys2Proof.Machine

/-! ### Reading a register after a write -/

theorem readV_writeV (s : State) (x y : Reg) (b : Byte) :
    (s.writeV x b).readV y = if y = x then b else s.readV y := by
  rcases eq_or_ne y x with h | h
  · subst h; simp [State.readV, State.writeV]
  · have : x.val ≠ y.val := fun e => h (Fin.ext e.symm)
    simp [State.readV, State.writeV, h, this]

@[simp] theorem readV_writeV_same (s : State) (x : Reg) (b : Byte) :
    (s.writeV x b).readV x = b := by
  simp [readV_writeV]

@[simp] theorem readV_writeV_ne (s : State) {x y : Reg} (b : Byte) (h : y ≠ x) :
    (s.writeV x b).readV y = s.readV y := by
  simp [readV_writeV, h]

/-- A register reads the same in two states with the same register file. -/
theorem readV_congr {s t : State} (h : t.v = s.v) (x : Reg) : t.readV x = s.readV x := by
  simp [State.readV, h]

@[simp] theorem readV_writeI (s : State) (w : Word) (x : Reg) : (s.writeI w).readV x = s.readV x := rfl
@[simp] theorem readV_writePc (s : State) (w : Word) (x : Reg) : (s.writePc w).readV x = s.readV x := rfl
@[simp] theorem readV_writeDt (s : State) (b : Byte) (x : Reg) : (s.writeDt b).readV x = s.readV x := rfl
@[simp] theorem readV_writeSt (s : State) (b : Byte) (x : Reg) : (s.writeSt b).readV x = s.readV x := rfl
@[simp] theorem readV_writeWait (s : State) (w : Option Reg) (x : Reg) :
    (s.writeWait w).readV x = s.readV x := rfl
@[simp] theorem readV_pushPc (s : State) (x : Reg) : s.pushPc.readV x = s.readV x := rfl
@[simp] theorem readV_popPc (s : State) (w : Word) (x : Reg) : (s.popPc w).readV x = s.readV x := rfl
@[simp] theorem readV_storeBytes (s : State) (a : Nat) (bs : List Byte) (x : Reg) :
    (s.storeBytes a bs).readV x = s.readV x := rfl
@[simp] theorem readV_takeFault (s : State) (r : FaultRecord) (x : Reg) :
    (s.takeFault r).readV x = s.readV x := rfl
@[simp] theorem readV_consumeRandom (s : State) (x : Reg) : s.consumeRandom.readV x = s.readV x := rfl
@[simp] theorem readV_writeFb (s : State) (fb : Framebuffer) (x : Reg) :
    (s.writeFb fb).readV x = s.readV x := rfl
@[simp] theorem readV_countTimers (s : State) (x : Reg) : s.countTimers.readV x = s.readV x := rfl
@[simp] theorem readV_skip (s : State) (x : Reg) : s.skip.readV x = s.readV x := rfl
@[simp] theorem readV_advance (s : State) (x : Reg) : s.advance.readV x = s.readV x := rfl

/-! ### Result and flag -/

@[simp] theorem writeFlag_eq (s : State) (f : Bool) :
    s.writeFlag f = s.writeV flagReg (flagByte f) := rfl

/-- VF ends holding the flag, whatever the destination (10_state.md R23). -/
theorem readV_writeResultFlag (s : State) (x y : Reg) (b : Byte) (f : Bool) :
    (s.writeResultFlag x b f).readV y =
      if y = flagReg then flagByte f else if y = x then b else s.readV y := by
  simp [State.writeResultFlag, readV_writeV]

theorem writeResultFlag_eq (s : State) (x : Reg) (b : Byte) (f : Bool) :
    s.writeResultFlag x b f = (s.writeV x b).writeV flagReg (flagByte f) := rfl

/-! ### Skips -/

@[simp] theorem skipIf_true (s : State) : s.skipIf true = s.skip := rfl
@[simp] theorem skipIf_false (s : State) : s.skipIf false = s := rfl

/-- All a conditional skip can do: PC moves on by 2 or stays (42_skips.md R100). -/
theorem skipIf_eq (s : State) (c : Bool) :
    s.skipIf c = s.writePc (if c then s.pc + 2 else s.pc) := by
  cases c <;> rfl

/-! ### Loading the first registers -/

theorem getElem_foldl_set (bs : List Byte) (k : Nat) (v : Vector Byte 16) (j : Nat) (hj : j < 16) :
    ((bs.zipIdx k).foldl (fun v bk => v.setIfInBounds bk.2 bk.1) v)[j] =
      if h : k ≤ j ∧ j - k < bs.length then bs[j - k] else v[j] := by
  induction bs generalizing k v with
  | nil => simp
  | cons b rest ih =>
    rw [List.zipIdx_cons, List.foldl_cons, ih]
    rcases Nat.lt_trichotomy j k with h | h | h
    · have h1 : ¬ k ≤ j := by omega
      have h2 : ¬ k + 1 ≤ j := by omega
      have h3 : k ≠ j := by omega
      simp [h1, h2, h3]
    · subst h
      simp
    · obtain ⟨d, rfl⟩ : ∃ d, j = k + 1 + d := ⟨j - (k + 1), by omega⟩
      have e : k + 1 + d - k = d + 1 := by omega
      have h3 : k ≠ k + 1 + d := by omega
      have h4 : k ≤ k + 1 + d := by omega
      simp [e, h3, h4]

/-- V0, V1, … hold the given bytes, and the registers beyond them are unchanged (R156). -/
theorem readV_writeFirstV (s : State) (bs : List Byte) (x : Reg) :
    (s.writeFirstV bs).readV x = bs.getD x.val (s.readV x) := by
  have := getElem_foldl_set bs 0 s.v x.val x.isLt
  simp only [State.readV, State.writeFirstV, Fin.getElem_fin, this]
  by_cases h : x.val < bs.length <;> simp [h]

/-! ### The stack -/

theorem pushPc_slot (s : State) (k : Fin 16) :
    s.pushPc.stack[k] = if k.val = s.sp.toNat then s.pc else s.stack[k] := by
  simp only [pushPc_stack, Fin.getElem_fin]
  by_cases h : k.val = s.sp.toNat
  · simp [h]
  · have : s.sp.toNat ≠ k.val := fun e => h e.symm
    simp [h, this]

/-- The return address exists exactly for an SP from 1 to 16 (10_state.md R26). -/
theorem returnAddress_eq_some_iff (s : State) (w : Word) :
    s.returnAddress = some w ↔ ∃ h : (s.sp - 1).toNat < 16, s.stack[(s.sp - 1).toNat] = w := by
  simp [State.returnAddress, Vector.getElem?_eq_some_iff]

/-! ### Frames -/

section keeps
variable {s t : State}

@[simp] theorem keeps_reg {x : Reg} : Keeps s t (.reg x) ↔ t.readV x = s.readV x := Iff.rfl
@[simp] theorem keeps_i : Keeps s t .i ↔ t.i = s.i := Iff.rfl
@[simp] theorem keeps_pc : Keeps s t .pc ↔ t.pc = s.pc := Iff.rfl
@[simp] theorem keeps_sp : Keeps s t .sp ↔ t.sp = s.sp := Iff.rfl
@[simp] theorem keeps_slot {k : Fin 16} : Keeps s t (.slot k) ↔ t.stack[k] = s.stack[k] := Iff.rfl
@[simp] theorem keeps_dt : Keeps s t .dt ↔ t.dt = s.dt := Iff.rfl
@[simp] theorem keeps_st : Keeps s t .st ↔ t.st = s.st := Iff.rfl
@[simp] theorem keeps_wait : Keeps s t .wait ↔ t.wait = s.wait := Iff.rfl
@[simp] theorem keeps_fault : Keeps s t .fault ↔ t.fault = s.fault := Iff.rfl
@[simp] theorem keeps_byte {a : Nat} :
    Keeps s t (.byte a) ↔ Memory.byteAt t.mem a = Memory.byteAt s.mem a := Iff.rfl
@[simp] theorem keeps_pixel {r : Fin 32} {c : Fin 64} :
    Keeps s t (.pixel r c) ↔ pixel t.fb r c = pixel s.fb r c := Iff.rfl
@[simp] theorem keeps_key {k : Fin 16} : Keeps s t (.key k) ↔ t.keys[k] = s.keys[k] := Iff.rfl
@[simp] theorem keeps_fbWritten : Keeps s t .fbWritten ↔ t.fbWritten = s.fbWritten := Iff.rfl
@[simp] theorem keeps_draws : Keeps s t .draws ↔ t.draws = s.draws := Iff.rfl
@[simp] theorem keeps_keyInput : Keeps s t .keyInput ↔ t.keyInput = s.keyInput := Iff.rfl

/-- Keeping a part composes over a run. -/
theorem Keeps.trans {u : State} {p : Part} (h : Keeps s t p) (h' : Keeps t u p) : Keeps s u p := by
  cases p <;> exact Eq.trans h' h

theorem Keeps.refl (p : Part) : Keeps s s p := by
  cases p <;> rfl

end keeps

end Sys2Proof.Machine
end

