-- ==== Sys2Proof/Laws/Ops.lean ====
section
/-! SUPPORT. One lemma per shared operation that says everything it can do: raising a fault, the
range check, the start of a tick, key consumption. -/

namespace Sys2Proof.Machine

/-! ### The range check -/

/-- Nothing is out of range exactly when there is nothing to access, or the last byte is below
4096 (20_memory.md R37). -/
theorem firstOutOfRange_eq_none_iff (base len : Nat) :
    firstOutOfRange base len = none ↔ len = 0 ∨ base + len ≤ Config.memSize := by
  unfold firstOutOfRange
  split <;> simp <;> omega

/-- The address reported is max(base, 4096) (60_exceptions.md R215). -/
theorem firstOutOfRange_eq_some {base len a : Nat} (h : firstOutOfRange base len = some a) :
    a = max base Config.memSize ∧ 0 < len ∧ Config.memSize < base + len := by
  unfold firstOutOfRange at h
  split at h
  · next hc => simp at h; exact ⟨h.symm, hc.1, by omega⟩
  · simp at h

theorem checkRange_of_fits {base len : Nat} (h : len = 0 ∨ base + len ≤ Config.memSize) (op : Word)
    (s t : State) : checkRange op base len s t = .next t := by
  simp [checkRange, (firstOutOfRange_eq_none_iff base len).2 h]

theorem checkRange_of_exceeds {base len : Nat} (h0 : 0 < len) (h : Config.memSize < base + len)
    (op : Word) (s t : State) :
    checkRange op base len s t = raise .memoryBounds op (some (max base Config.memSize)) s := by
  have hf : firstOutOfRange base len = some (max base Config.memSize) := by
    unfold firstOutOfRange
    rw [if_pos ⟨h0, by omega⟩]
  simp [checkRange, hf]

/-- All a checked access can do: complete, or raise MemoryBounds. -/
theorem checkRange_cases {op : Word} {base len : Nat} {s t u : State}
    (h : checkRange op base len s t = .next u) :
    (u = t ∧ (len = 0 ∨ base + len ≤ Config.memSize)) ∨
    (u = s.takeFault ⟨.memoryBounds, some op, s.pc - 2, some (max base Config.memSize)⟩ ∧
      0 < len ∧ Config.memSize < base + len) := by
  unfold checkRange at h
  split at h
  · next a ha =>
    obtain ⟨rfl, h0, h1⟩ := firstOutOfRange_eq_some ha
    exact .inr ⟨by simpa [raise] using h.symm, h0, h1⟩
  · next hn => exact .inl ⟨by simpa using h.symm, (firstOutOfRange_eq_none_iff _ _).1 hn⟩

/-! ### Raising a fault -/

theorem raise_eq (kind : FaultKind) (op : Word) (extra : Option Nat) (s : State) :
    raise kind op extra s = .next (s.takeFault ⟨kind, some op, s.pc - 2, extra⟩) := rfl

/-! ### The start of a tick -/

section beginTick
variable (s : State)

@[simp] theorem beginTick_v : s.beginTick.v = s.v := by unfold State.beginTick State.sampleKeys; split <;> rfl
@[simp] theorem beginTick_i : s.beginTick.i = s.i := by unfold State.beginTick State.sampleKeys; split <;> rfl
@[simp] theorem beginTick_pc : s.beginTick.pc = s.pc := by unfold State.beginTick State.sampleKeys; split <;> rfl
@[simp] theorem beginTick_sp : s.beginTick.sp = s.sp := by unfold State.beginTick State.sampleKeys; split <;> rfl
@[simp] theorem beginTick_stack : s.beginTick.stack = s.stack := by
  unfold State.beginTick State.sampleKeys; split <;> rfl
@[simp] theorem beginTick_dt : s.beginTick.dt = s.dt := by unfold State.beginTick State.sampleKeys; split <;> rfl
@[simp] theorem beginTick_st : s.beginTick.st = s.st := by unfold State.beginTick State.sampleKeys; split <;> rfl
@[simp] theorem beginTick_wait : s.beginTick.wait = s.wait := by
  unfold State.beginTick State.sampleKeys; split <;> rfl
@[simp] theorem beginTick_fault : s.beginTick.fault = s.fault := by
  unfold State.beginTick State.sampleKeys; split <;> rfl
@[simp] theorem beginTick_mem : s.beginTick.mem = s.mem := by unfold State.beginTick State.sampleKeys; split <;> rfl
@[simp] theorem beginTick_fb : s.beginTick.fb = s.fb := by unfold State.beginTick State.sampleKeys; split <;> rfl
@[simp] theorem beginTick_fbWritten : s.beginTick.fbWritten = false := rfl
@[simp] theorem beginTick_draws : s.beginTick.draws = s.draws := by
  unfold State.beginTick State.sampleKeys; split <;> rfl
@[simp] theorem beginTick_keys : s.beginTick.keys = s.keyInput.headD s.keys := by
  unfold State.beginTick State.sampleKeys; split <;> simp_all
@[simp] theorem beginTick_keyInput : s.beginTick.keyInput = s.keyInput.tail := by
  unfold State.beginTick State.sampleKeys; split <;> simp_all
@[simp] theorem readV_beginTick (x : Reg) : s.beginTick.readV x = s.readV x := readV_congr (beginTick_v s) x

/-- The start of a tick touches the host's side only (60_exceptions.md R225, R227). -/
theorem keeps_beginTick : KeepsUnless HostSide s s.beginTick := by
  intro p hp
  cases p <;> simp [HostSide] at hp ⊢

end beginTick

/-- Fetch depends on PC and memory alone (40_engine_cycle.md R68). -/
theorem fetch_congr {s t : State} (hpc : t.pc = s.pc) (hmem : t.mem = s.mem) : t.fetch = s.fetch := by
  simp [State.fetch, hpc, hmem]

/-! ### Keys and timers -/

/-- The least pressed key is pressed, and no smaller one is (45_timers_keys.md R174). -/
theorem leastPressed_eq_some {keys : Keypad} {k : Reg} (h : leastPressed keys = some k) :
    keys[k] = true ∧ ∀ j < k, keys[j] = false := by
  unfold leastPressed at h
  rw [List.find?_eq_some_iff_getElem] at h
  obtain ⟨hk, n, hn, hnk, hlt⟩ := h
  refine ⟨hk, fun j hj => ?_⟩
  have hval : k.val = n := by simp [← hnk]
  have := hlt j.val (by have := Fin.lt_def.1 hj; omega)
  simpa using this

theorem leastPressed_eq_none {keys : Keypad} :
    leastPressed keys = none ↔ ∀ k : Reg, keys[k] = false := by
  simp [leastPressed, List.find?_eq_none]

theorem toNat_countDown (t : Byte) : (countDown t).toNat = t.toNat - 1 := by
  unfold countDown
  split
  · next h => subst h; rfl
  · next h =>
    have hlt := t.isLt
    have : t.toNat ≠ 0 := fun e => h (BitVec.eq_of_toNat_eq (by simpa using e))
    rw [BitVec.toNat_sub]
    simp
    omega

@[simp] theorem toNat_keyValue (k : Reg) : (keyValue k).toNat = k.val := by
  have := k.isLt
  simp [keyValue]
  omega

end Sys2Proof.Machine
end

