-- ==== Sys2Proof/Laws/Display.lean ====
section
/-! SUPPORT. What a draw does, pixel by pixel (46_display.md R192 to R194). -/

namespace Sys2Proof.Machine

theorem pixel_setPixel (fb : Framebuffer) (r r' : Fin 32) (c c' : Fin 64) (b : Bool) :
    pixel (setPixel fb r c b) r' c' = if r' = r ∧ c' = c then b else pixel fb r' c' := by
  unfold pixel setPixel
  by_cases hr : r' = r
  · subst hr
    by_cases hc : c' = c
    · subst hc; simp
    · have : c.val ≠ c'.val := fun e => hc (Fin.ext e.symm)
      simp [hc, this]
  · have : r.val ≠ r'.val := fun e => hr (Fin.ext e.symm)
    simp [hr, this]

@[simp] theorem pixel_blank (r : Fin 32) (c : Fin 64) : pixel Framebuffer.blank r c = false := by
  simp [pixel, Framebuffer.blank]

theorem pixel_toggle (k : Canvas) (r r' : Fin 32) (c c' : Fin 64) :
    pixel (k.toggle r c).fb r' c' = (pixel k.fb r' c' ^^ decide (r' = r ∧ c' = c)) := by
  simp only [Canvas.toggle, pixel_setPixel]
  split
  · next h => obtain ⟨rfl, rfl⟩ := h; simp
  · next h => simp [h]

/-- Coordinates less than 64 apart name different columns. -/
theorem colOf_ne {x i j : Nat} (h : i < j) (h64 : j < i + 64) : colOf (x + i) ≠ colOf (x + j) := by
  intro e
  have : (x + i) % 64 = (x + j) % 64 := by simpa [colOf, Fin.ofNat, Fin.ext_iff] using e
  omega

/-- Coordinates less than 32 apart name different rows. -/
theorem rowOf_ne {y i j : Nat} (h : i < j) (h32 : j < i + 32) : rowOf (y + i) ≠ rowOf (y + j) := by
  intro e
  have : (y + i) % 32 = (y + j) % 32 := by simpa [rowOf, Fin.ofNat, Fin.ext_iff] using e
  omega

/-- A set bit among the first `n` columns of the row at `y` targets pixel (r, c). -/
def CoversInRow (x y : Nat) (b : Byte) (n : Nat) (r : Fin 32) (c : Fin 64) : Prop :=
  r = rowOf y ∧ ∃ col < n, c = colOf (x + col) ∧ spriteBit b col = true

/-- A set bit of the sprite targets pixel (r, c). -/
def Covers (x y : Nat) (rows : List Byte) (r : Fin 32) (c : Fin 64) : Prop :=
  ∃ row b, rows[row]? = some b ∧ CoversInRow x (y + row) b 8 r c

theorem coversInRow_succ (x y : Nat) (b : Byte) (n : Nat) (r : Fin 32) (c : Fin 64) :
    CoversInRow x y b (n + 1) r c ↔
      CoversInRow x y b n r c ∨ (r = rowOf y ∧ c = colOf (x + n) ∧ spriteBit b n = true) := by
  constructor
  · rintro ⟨hr, col, hlt, h⟩
    rcases Nat.lt_succ_iff_lt_or_eq.1 hlt with h' | rfl
    · exact .inl ⟨hr, col, h', h⟩
    · exact .inr ⟨hr, h⟩
  · rintro (⟨hr, col, hlt, h⟩ | ⟨hr, h⟩)
    · exact ⟨hr, col, by omega, h⟩
    · exact ⟨hr, n, by omega, h⟩

theorem covers_cons (x y : Nat) (b : Byte) (rest : List Byte) (r : Fin 32) (c : Fin 64) :
    Covers x y (b :: rest) r c ↔ CoversInRow x y b 8 r c ∨ Covers x (y + 1) rest r c := by
  constructor
  · rintro ⟨row, b', hb, h⟩
    cases row with
    | zero => left; simp at hb; subst hb; exact h
    | succ row => right; exact ⟨row, b', by simpa using hb, by rwa [show y + 1 + row = y + (row + 1) by omega]⟩
  · rintro (h | ⟨row, b', hb, h⟩)
    · exact ⟨0, b, rfl, h⟩
    · exact ⟨row + 1, b', by simpa using hb, by rwa [show y + (row + 1) = y + 1 + row by omega]⟩

open Classical in
/-- One sprite row XORs its set bits into the pixels they target. -/
theorem pixel_drawCols (x y : Nat) (b : Byte) {n : Nat} (hn : n ≤ 64) (k : Canvas) (r : Fin 32)
    (c : Fin 64) : pixel (drawCols x y b n k).fb r c =
      (pixel k.fb r c ^^ decide (CoversInRow x y b n r c)) := by
  induction n with
  | zero => simp [drawCols, CoversInRow]
  | succ n ih =>
    have ih := ih (by omega)
    unfold drawCols
    split
    · next hb =>
      rw [pixel_toggle, ih, Bool.xor_assoc]
      congr 1
      by_cases hrc : r = rowOf y ∧ c = colOf (x + n)
      · have hno : ¬ CoversInRow x y b n r c := by
          rintro ⟨-, col, hlt, hc, -⟩
          exact colOf_ne (x := x) hlt (by omega) (hc.symm.trans hrc.2)
        obtain ⟨rfl, rfl⟩ := hrc
        simp [coversInRow_succ, hno, hb]
      · have : ¬ (r = rowOf y ∧ c = colOf (x + n) ∧ spriteBit b n = true) := fun h => hrc ⟨h.1, h.2.1⟩
        simp [coversInRow_succ, this, hrc]
    · next hb => rw [ih]; simp [coversInRow_succ, hb]

/-- A row's collision: some pixel a set bit targets was on before. -/
theorem hit_drawCols (x y : Nat) (b : Byte) {n : Nat} (hn : n ≤ 64) (k : Canvas) :
    (drawCols x y b n k).hit = true ↔
      k.hit = true ∨ ∃ r c, CoversInRow x y b n r c ∧ pixel k.fb r c = true := by
  induction n with
  | zero => simp [drawCols, CoversInRow]
  | succ n ih =>
    have ih := ih (by omega)
    unfold drawCols
    split
    · next hb =>
      have hno : ¬ CoversInRow x y b n (rowOf y) (colOf (x + n)) := by
        rintro ⟨-, col, hlt, hc, -⟩
        exact colOf_ne (x := x) hlt (by omega) hc.symm
      have hp : pixel (drawCols x y b n k).fb (rowOf y) (colOf (x + n)) =
          pixel k.fb (rowOf y) (colOf (x + n)) := by
        rw [pixel_drawCols x y b (by omega)]; simp [hno]
      simp only [Canvas.toggle, Bool.or_eq_true, ih, hp, coversInRow_succ]
      constructor
      · rintro ((h | ⟨r, c, h, hpx⟩) | h)
        · exact .inl h
        · exact .inr ⟨r, c, .inl h, hpx⟩
        · exact .inr ⟨_, _, .inr ⟨rfl, rfl, hb⟩, h⟩
      · rintro (h | ⟨r, c, h | ⟨rfl, rfl, -⟩, hpx⟩)
        · exact .inl (.inl h)
        · exact .inl (.inr ⟨r, c, h, hpx⟩)
        · exact .inr hpx
    · next hb => simp [ih, coversInRow_succ, hb]

/-- Rows of one sprite that are at most 32 apart never target the same pixel. -/
theorem not_covers_of_coversInRow {x y : Nat} {b : Byte} {rest : List Byte} {r : Fin 32} {c : Fin 64}
    (hlen : rest.length < 32) (h : CoversInRow x y b 8 r c) : ¬ Covers x (y + 1) rest r c := by
  rintro ⟨row, b', hb, hr, -⟩
  have hrow : row < rest.length := (List.getElem?_eq_some_iff.1 hb).1
  have := rowOf_ne (y := y) (i := 0) (j := 1 + row) (by omega) (by omega)
  exact this (by rw [show y + (1 + row) = y + 1 + row by omega]; exact h.1.symm.trans hr)

open Classical in
/-- A draw XORs the sprite into the framebuffer (R192, R193). -/
theorem pixel_drawRows (x y : Nat) {rows : List Byte} (hlen : rows.length ≤ 32) (k : Canvas)
    (r : Fin 32) (c : Fin 64) : pixel (drawRows x y rows k).fb r c =
      (pixel k.fb r c ^^ decide (Covers x y rows r c)) := by
  induction rows generalizing y k with
  | nil => simp [drawRows, Covers]
  | cons b rest ih =>
    simp only [List.length_cons] at hlen
    rw [drawRows, ih (y + 1) (by omega), pixel_drawCols x y b (by omega), Bool.xor_assoc]
    congr 1
    by_cases h1 : CoversInRow x y b 8 r c
    · have hno : ¬ Covers x (y + 1) rest r c := not_covers_of_coversInRow (by omega) h1
      simp [covers_cons, h1, hno]
    · simp [covers_cons, h1]

/-- The collision flag of a draw: some pixel a set bit targets was on before the draw (R194). -/
theorem hit_drawRows (x y : Nat) {rows : List Byte} (hlen : rows.length ≤ 32) (k : Canvas) :
    (drawRows x y rows k).hit = true ↔
      k.hit = true ∨ ∃ r c, Covers x y rows r c ∧ pixel k.fb r c = true := by
  induction rows generalizing y k with
  | nil => simp [drawRows, Covers]
  | cons b rest ih =>
    simp only [List.length_cons] at hlen
    rw [drawRows, ih (y + 1) (by omega), hit_drawCols x y b (by omega)]
    have hp : ∀ r c, Covers x (y + 1) rest r c →
        pixel (drawCols x y b 8 k).fb r c = pixel k.fb r c := by
      intro r c hc
      have : ¬ CoversInRow x y b 8 r c := fun h => not_covers_of_coversInRow (by omega) h hc
      rw [pixel_drawCols x y b (by omega)]; simp [this]
    constructor
    · rintro ((h | ⟨r, c, h, hpx⟩) | ⟨r, c, h, hpx⟩)
      · exact .inl h
      · exact .inr ⟨r, c, (covers_cons ..).2 (.inl h), hpx⟩
      · exact .inr ⟨r, c, (covers_cons ..).2 (.inr h), by rwa [hp r c h] at hpx⟩
    · rintro (h | ⟨r, c, h, hpx⟩)
      · exact .inl (.inl h)
      · rcases (covers_cons ..).1 h with h | h
        · exact .inl (.inr ⟨r, c, h, hpx⟩)
        · exact .inr ⟨r, c, h, by rwa [hp r c h]⟩

/-- The sprite at I covers the pixels its rows, read from memory, target. -/
theorem spriteCovers_iff (s : State) (x y : Reg) (n : Nibble) (r : Fin 32) (c : Fin 64) :
    SpriteCovers s x y n r c ↔
      Covers (s.readV x).toNat (s.readV y).toNat (Memory.bytesFrom s.mem s.i.toNat n.val) r c := by
  have key : ∀ row b, (Memory.bytesFrom s.mem s.i.toNat n.val)[row]? = some b ↔
      row < n.val ∧ b = Memory.byteAt s.mem (s.i.toNat + row) := by
    intro row b
    have hget := Memory.getD_bytesFrom s.mem s.i.toNat n.val row 0
    by_cases h : row < n.val
    · simp [h] at hget ⊢
      rw [hget]
      exact eq_comm
    · simp [h]
  constructor
  · rintro ⟨row, h, col, hc, hr, hcol, hbit⟩
    exact ⟨row, _, (key _ _).2 ⟨h, rfl⟩, Fin.ext (by simp [hr, rowOf, Fin.ofNat]), col, hc,
      Fin.ext (by simp [hcol, colOf, Fin.ofNat]), hbit⟩
  · rintro ⟨row, b, hb, hr, col, hc, hcol, hbit⟩
    obtain ⟨h, rfl⟩ := (key _ _).1 hb
    exact ⟨row, h, col, hc, by simp [hr, rowOf, Fin.ofNat], by simp [hcol, colOf, Fin.ofNat], hbit⟩

/-- A draw changes exactly the pixels its sprite covers. -/
theorem pixel_drawn (s : State) (x y : Reg) (n : Nibble) (r : Fin 32) (c : Fin 64)
    [Decidable (SpriteCovers s x y n r c)] :
    pixel (s.drawn x y n).fb r c = (pixel s.fb r c ^^ decide (SpriteCovers s x y n r c)) := by
  classical
  have h := pixel_drawRows (s.readV x).toNat (s.readV y).toNat
    (rows := Memory.bytesFrom s.mem s.i.toNat n.val) (by simp; omega) ⟨s.fb, false⟩ r c
  simpa [State.drawn, spriteCovers_iff] using h

/-- A draw collides exactly when its sprite covers a pixel that is on. -/
theorem hit_drawn (s : State) (x y : Reg) (n : Nibble) :
    (s.drawn x y n).hit = true ↔ ∃ r c, SpriteCovers s x y n r c ∧ pixel s.fb r c = true := by
  have h := hit_drawRows (s.readV x).toNat (s.readV y).toNat
    (rows := Memory.bytesFrom s.mem s.i.toNat n.val) (by simp; omega) ⟨s.fb, false⟩
  simpa [State.drawn, spriteCovers_iff] using h

end Sys2Proof.Machine
end

