-- ==== Sys2Proof/Laws/PerInstr.lean ====
section
/-! SUPPORT. Per instruction: its encoding matches the mask and match of its row of
spec/opcode_table.json, copied here from the table. -/

namespace Sys2Proof.Laws.TableRow

/-- The (mask, match) pair of the instruction's row. -/
def rowOf (i : Instr) : Word × Word :=
  match i with
  | .cls => (0xFFFF, 0x00E0)
  | .ret => (0xFFFF, 0x00EE)
  | .sys _ => (0xF000, 0x0000)
  | .jp _ => (0xF000, 0x1000)
  | .call _ => (0xF000, 0x2000)
  | .seImm _ _ => (0xF000, 0x3000)
  | .sneImm _ _ => (0xF000, 0x4000)
  | .seReg _ _ _ => (0xF000, 0x5000)
  | .ldImm _ _ => (0xF000, 0x6000)
  | .addImm _ _ => (0xF000, 0x7000)
  | .ldReg _ _ => (0xF00F, 0x8000)
  | .orReg _ _ => (0xF00F, 0x8001)
  | .andReg _ _ => (0xF00F, 0x8002)
  | .xorReg _ _ => (0xF00F, 0x8003)
  | .addReg _ _ => (0xF00F, 0x8004)
  | .subReg _ _ => (0xF00F, 0x8005)
  | .shr _ _ => (0xF00F, 0x8006)
  | .subnReg _ _ => (0xF00F, 0x8007)
  | .shl _ _ => (0xF00F, 0x800E)
  | .sneReg _ _ _ => (0xF000, 0x9000)
  | .ldI _ => (0xF000, 0xA000)
  | .jpV0 _ => (0xF000, 0xB000)
  | .rnd _ _ => (0xF000, 0xC000)
  | .drw _ _ _ => (0xF000, 0xD000)
  | .skp _ => (0xF0FF, 0xE09E)
  | .sknp _ => (0xF0FF, 0xE0A1)
  | .ldVxDt _ => (0xF0FF, 0xF007)
  | .ldVxKey _ => (0xF0FF, 0xF00A)
  | .ldDtVx _ => (0xF0FF, 0xF015)
  | .ldStVx _ => (0xF0FF, 0xF018)
  | .addI _ => (0xF0FF, 0xF01E)
  | .ldFont _ => (0xF0FF, 0xF029)
  | .ldBcd _ => (0xF0FF, 0xF033)
  | .storeRegs _ => (0xF0FF, 0xF055)
  | .loadRegs _ => (0xF0FF, 0xF065)

/-- The encoding lies in the instruction's row. -/
def Statement (i : Instr) : Prop := encode i &&& (rowOf i).1 = (rowOf i).2

theorem mask_encNNN (b : BitVec 4) (nnn : Addr12) : encNNN b nnn &&& 0xF000 = b ++ (0 : BitVec 12) := by
  ext i hi
  simp only [encNNN, BitVec.getElem_and, BitVec.getElem_append]
  interval_cases i <;> simp

theorem mask_encXKK (b : BitVec 4) (x : Reg) (kk : Byte) :
    encXKK b x kk &&& 0xF000 = b ++ (0 : BitVec 12) :=
  mask_encNNN b (nibbleBits x ++ kk)

theorem mask_encXYN (b : BitVec 4) (x y : Reg) (n : Nibble) :
    encXYN b x y n &&& 0xF000 = b ++ (0 : BitVec 12) :=
  mask_encNNN b (nibbleBits x ++ (nibbleBits y ++ nibbleBits n))

theorem subOp (x y : Reg) (n : Nibble) :
    encXYN 0x8 x y n &&& 0xF00F = (0x8 : BitVec 4) ++ ((0 : BitVec 8) ++ nibbleBits n) := by
  ext i hi
  simp only [encXYN, BitVec.getElem_and, BitVec.getElem_append]
  interval_cases i <;> simp

theorem subByte (b : BitVec 4) (x : Reg) (kk : Byte) :
    encXKK b x kk &&& 0xF0FF = b ++ ((0 : BitVec 4) ++ kk) := by
  ext i hi
  simp only [encXKK, BitVec.getElem_and, BitVec.getElem_append]
  interval_cases i <;> simp

theorem cls : Statement .cls := rfl
theorem ret : Statement .ret := rfl
theorem sys (nnn : Addr12) : Statement (.sys nnn) := mask_encNNN _ nnn
theorem jp (nnn : Addr12) : Statement (.jp nnn) := mask_encNNN _ nnn
theorem call (nnn : Addr12) : Statement (.call nnn) := mask_encNNN _ nnn
theorem seImm (x : Reg) (kk : Byte) : Statement (.seImm x kk) := mask_encXKK _ x kk
theorem sneImm (x : Reg) (kk : Byte) : Statement (.sneImm x kk) := mask_encXKK _ x kk
theorem seReg (x : Reg) (y : Reg) (ignored : Nibble) : Statement (.seReg x y ignored) := mask_encXYN _ x y ignored
theorem ldImm (x : Reg) (kk : Byte) : Statement (.ldImm x kk) := mask_encXKK _ x kk
theorem addImm (x : Reg) (kk : Byte) : Statement (.addImm x kk) := mask_encXKK _ x kk
theorem ldReg (x : Reg) (y : Reg) : Statement (.ldReg x y) :=
  subOp x y _
theorem orReg (x : Reg) (y : Reg) : Statement (.orReg x y) :=
  subOp x y _
theorem andReg (x : Reg) (y : Reg) : Statement (.andReg x y) :=
  subOp x y _
theorem xorReg (x : Reg) (y : Reg) : Statement (.xorReg x y) :=
  subOp x y _
theorem addReg (x : Reg) (y : Reg) : Statement (.addReg x y) :=
  subOp x y _
theorem subReg (x : Reg) (y : Reg) : Statement (.subReg x y) :=
  subOp x y _
theorem shr (x : Reg) (y : Reg) : Statement (.shr x y) :=
  subOp x y _
theorem subnReg (x : Reg) (y : Reg) : Statement (.subnReg x y) :=
  subOp x y _
theorem shl (x : Reg) (y : Reg) : Statement (.shl x y) :=
  subOp x y _
theorem sneReg (x : Reg) (y : Reg) (ignored : Nibble) : Statement (.sneReg x y ignored) := mask_encXYN _ x y ignored
theorem ldI (nnn : Addr12) : Statement (.ldI nnn) := mask_encNNN _ nnn
theorem jpV0 (nnn : Addr12) : Statement (.jpV0 nnn) := mask_encNNN _ nnn
theorem rnd (x : Reg) (kk : Byte) : Statement (.rnd x kk) := mask_encXKK _ x kk
theorem drw (x : Reg) (y : Reg) (n : Nibble) : Statement (.drw x y n) := mask_encXYN _ x y n
theorem skp (x : Reg) : Statement (.skp x) :=
  subByte _ x _
theorem sknp (x : Reg) : Statement (.sknp x) :=
  subByte _ x _
theorem ldVxDt (x : Reg) : Statement (.ldVxDt x) :=
  subByte _ x _
theorem ldVxKey (x : Reg) : Statement (.ldVxKey x) :=
  subByte _ x _
theorem ldDtVx (x : Reg) : Statement (.ldDtVx x) :=
  subByte _ x _
theorem ldStVx (x : Reg) : Statement (.ldStVx x) :=
  subByte _ x _
theorem addI (x : Reg) : Statement (.addI x) :=
  subByte _ x _
theorem ldFont (x : Reg) : Statement (.ldFont x) :=
  subByte _ x _
theorem ldBcd (x : Reg) : Statement (.ldBcd x) :=
  subByte _ x _
theorem storeRegs (x : Reg) : Statement (.storeRegs x) :=
  subByte _ x _
theorem loadRegs (x : Reg) : Statement (.loadRegs x) :=
  subByte _ x _

end Sys2Proof.Laws.TableRow
end

