-- ==== Sys2Proof/Laws/Step.lean ====
section
/-! SUPPORT. What one step answers in each case, and everything it can do, said once
(40_engine_cycle.md R73). -/

namespace Sys2Proof.Machine

@[simp] theorem fetch_beginTick (s : State) : s.beginTick.fetch = s.fetch :=
  fetch_congr (by simp) (by simp)

theorem step_of_faulted {s : State} (hf : s.fault ≠ none) : step s = .next s := by
  unfold step
  split
  · rfl
  · contradiction

theorem step_of_waiting {s : State} {x : Reg} (hf : s.fault = none) (hw : s.wait = some x) :
    step s = .next (s.beginTick.waitingTick x) := by
  simp [step, hf, tick, hw]

theorem step_of_fetch_none {s : State} (hf : s.fault = none) (hw : s.wait = none)
    (ho : s.fetch = none) :
    step s = .next (s.beginTick.takeFault ⟨.fetchBounds, none, s.pc, none⟩) := by
  simp [step, hf, tick, hw, ho, raiseFetchBounds]

theorem step_of_fetch {s : State} {op : Word} (hf : s.fault = none) (hw : s.wait = none)
    (ho : s.fetch = some op) : step s = executeWord op s.beginTick := by
  simp [step, hf, tick, hw, ho]

theorem step_of_instr {s : State} {op : Word} {i : Instr} (hf : s.fault = none) (hw : s.wait = none)
    (ho : s.fetch = some op) (hd : decode op = .instr i) :
    step s = finishTick (exec i s.beginTick.advance) := by
  simp [step_of_fetch hf hw ho, executeWord, hd]

/-- The outcomes of a step that answers a next state. -/
theorem step_cases {s t : State} (h : step s = .next t) :
    (s.fault.isSome = true ∧ t = s) ∨
    (s.fault = none ∧ ∃ x, s.wait = some x ∧ t = s.beginTick.waitingTick x) ∨
    (s.fault = none ∧ s.wait = none ∧ s.fetch = none ∧
      t = s.beginTick.takeFault ⟨.fetchBounds, none, s.pc, none⟩) ∨
    (s.fault = none ∧ s.wait = none ∧ ∃ op bad, s.fetch = some op ∧ decode op = .invalid bad ∧
      t = s.beginTick.advance.takeFault ⟨.decodeFailure, some bad, s.pc, none⟩) ∨
    (s.fault = none ∧ s.wait = none ∧ ∃ op i u, s.fetch = some op ∧ decode op = .instr i ∧
      exec i s.beginTick.advance = .next u ∧ t = if u.fault.isSome then u else u.countTimers) := by
  unfold step at h
  split at h
  · next r hr => exact .inl ⟨by simp [hr], by simpa using h.symm⟩
  · next hf =>
    unfold tick at h
    split at h
    · next x hx => exact .inr (.inl ⟨hf, x, by simpa using hx, by simpa using h.symm⟩)
    · next hw =>
      rw [fetch_beginTick] at h
      have hw : s.wait = none := by simpa using hw
      split at h
      · next hn =>
        exact .inr (.inr (.inl ⟨hf, hw, hn, by simpa [raiseFetchBounds] using h.symm⟩))
      · next op ho =>
        unfold executeWord at h
        split at h
        · next bad hb =>
          refine .inr (.inr (.inr (.inl ⟨hf, hw, op, bad, ho, hb, ?_⟩)))
          simpa [raiseDecodeFailure, raise] using h.symm
        · next i hi =>
          unfold finishTick at h
          split at h
          · next u hu =>
            exact .inr (.inr (.inr (.inr ⟨hf, hw, op, i, u, ho, hi, hu, by simpa using h.symm⟩)))
          · simp at h
          · simp at h

/-- Running two sequences in turn is running them as one. -/
theorem runInOrder_append {is js : List Instr} {s t : State} (h : runInOrder is s = .next t) :
    runInOrder (is ++ js) s = runInOrder js t := by
  induction is generalizing s with
  | nil => cases h; rfl
  | cons i rest ih =>
    simp only [runInOrder, List.cons_append] at *
    split at h <;> simp_all

end Sys2Proof.Machine
end

