-- ==== Sys2Proof/Tests/Slice0.lean ====
section
/-! SUPPORT. Tests: expected values from spec/95_test_vectors.md (the vector's id is in the name) and
from the encodings of 30_encoding.md; and, for each statement with hypotheses, a witness that meets
them, at the boundary of each clause. -/

open Sys2Proof Sys2Proof.Machine

namespace Sys2Proof.Tests

/-! ### Small states -/

/-- Reset with some registers set. -/
def regs (l : List (Reg × Byte)) : State :=
  l.foldl (fun s p => s.writeV p.1 p.2) State.reset

/-- A keypad with exactly these keys pressed. -/
def keypad (pressed : List Nat) : Keypad := Vector.ofFn fun k => decide (k.val ∈ pressed)

/-- The word `op` placed at PC, one tick, and a check of the state after it. -/
def after (s : State) (op : Word) (check : State → Bool) : Bool :=
  match step (s.withFetchWord 16 op.toNat) with
  | .next t => check t
  | .fault _ => false
  | .refused _ => false

/-- One tick, nothing placed. -/
def ticked (s : State) (check : State → Bool) : Bool :=
  match step s with
  | .next t => check t
  | .fault _ => false
  | .refused _ => false

/-- One instruction's step 3. -/
def ran (i : Instr) (s : State) (check : State → Bool) : Bool :=
  match exec i s with
  | .next t => check t
  | .fault _ => false
  | .refused _ => false

/-- Reset with I at 0x300 and these bytes there. -/
def bytesAt300 (bytes : List Byte) (s : State) : State := (s.writeI 0x300).storeBytes 0x300 bytes

/-- `s` with these pixels on. -/
def lit (pixels : List (Fin 32 × Fin 64)) (s : State) : State :=
  { s with fb := pixels.foldl (fun fb p => setPixel fb p.1 p.2 true) s.fb }

/-! ### Well-formedness refuses the ill-formed -/

theorem test_wf_refuses_sys_0E0 : Instr.wf (.sys 0x0E0) = false := by decide
theorem test_wf_refuses_sys_0EE : Instr.wf (.sys 0x0EE) = false := by decide

/-! ### Decoding, words from the layouts of R56 and R59, bit by bit -/

theorem test_decode_cls : decode 0b0000000011100000 = .instr .cls := by decide
theorem test_decode_ret : decode 0b0000000011101110 = .instr .ret := by decide
theorem test_decode_sys : decode 0b0000000011100001 = .instr (.sys 0x0E1) := by decide
theorem test_decode_jp : decode 0b0001001000101000 = .instr (.jp 0x228) := by decide
theorem test_decode_call : decode 0b0010001100000001 = .instr (.call 0x301) := by decide
theorem test_decode_seImm : decode 0b0011001101000010 = .instr (.seImm 3 0x42) := by decide
theorem test_decode_sneImm : decode 0b0100001101000010 = .instr (.sneImm 3 0x42) := by decide
theorem test_decode_seReg : decode 0b0101000100100111 = .instr (.seReg 1 2 7) := by decide
theorem test_decode_ldImm : decode 0b0110101000101111 = .instr (.ldImm 10 0x2F) := by decide
theorem test_decode_addImm : decode 0b0111000111111111 = .instr (.addImm 1 0xFF) := by decide
theorem test_decode_ldReg : decode 0b1000000100100000 = .instr (.ldReg 1 2) := by decide
theorem test_decode_orReg : decode 0b1000000100100001 = .instr (.orReg 1 2) := by decide
theorem test_decode_andReg : decode 0b1000000100100010 = .instr (.andReg 1 2) := by decide
theorem test_decode_xorReg : decode 0b1000000100100011 = .instr (.xorReg 1 2) := by decide
theorem test_decode_addReg : decode 0b1000000100100100 = .instr (.addReg 1 2) := by decide
theorem test_decode_subReg : decode 0b1000000100100101 = .instr (.subReg 1 2) := by decide
theorem test_decode_shr : decode 0b1000000100100110 = .instr (.shr 1 2) := by decide
theorem test_decode_subnReg : decode 0b1000000100100111 = .instr (.subnReg 1 2) := by decide
theorem test_decode_shl : decode 0b1000000100101110 = .instr (.shl 1 2) := by decide
theorem test_decode_sneReg : decode 0b1001000100101111 = .instr (.sneReg 1 2 15) := by decide
theorem test_decode_ldI : decode 0b1010001011110000 = .instr (.ldI 0x2F0) := by decide
theorem test_decode_jpV0 : decode 0b1011001100000000 = .instr (.jpV0 0x300) := by decide
theorem test_decode_rnd : decode 0b1100001100001111 = .instr (.rnd 3 0x0F) := by decide
theorem test_decode_drw : decode 0b1101011110100011 = .instr (.drw 7 10 3) := by decide
theorem test_decode_skp : decode 0b1110010110011110 = .instr (.skp 5) := by decide
theorem test_decode_sknp : decode 0b1110010110100001 = .instr (.sknp 5) := by decide
theorem test_decode_ldVxDt : decode 0b1111001100000111 = .instr (.ldVxDt 3) := by decide
theorem test_decode_ldVxKey : decode 0b1111010100001010 = .instr (.ldVxKey 5) := by decide
theorem test_decode_ldDtVx : decode 0b1111000000010101 = .instr (.ldDtVx 0) := by decide
theorem test_decode_ldStVx : decode 0b1111000000011000 = .instr (.ldStVx 0) := by decide
theorem test_decode_addI : decode 0b1111001000011110 = .instr (.addI 2) := by decide
theorem test_decode_ldFont : decode 0b1111001000101001 = .instr (.ldFont 2) := by decide
theorem test_decode_ldBcd : decode 0b1111001100110011 = .instr (.ldBcd 3) := by decide
theorem test_decode_storeRegs : decode 0b1111001001010101 = .instr (.storeRegs 2) := by decide
theorem test_decode_loadRegs : decode 0b1111001001100101 = .instr (.loadRegs 2) := by decide

theorem test_decode_EC9_to_EC11 :
    [0x800F, 0x80AD, 0xE000, 0xE09F, 0xE0A0, 0xF000, 0xF00B, 0xF030, 0xF075].all
      (fun op => decode op == .invalid op) = true := by decide

/-- EC1: the first byte of an instruction is its high byte. -/
theorem test_bytes_big_endian : decodeBytes [0x60, 0x2A, 0x99] = .ok (.ldImm 0 0x2A, [0x99]) := by
  decide

theorem test_table_word_has_two_bytes : decodeTableWord 16 0xD7A3 = some (.drw 7 10 3) := by decide

/-- Words and assembly of the programs P2, P3 and P7. -/
theorem test_descriptors :
    [0x2210, 0xF265, 0xFA33, 0xD015, 0xF50A].map (fun op => match decode op with
      | .instr i => some i.descriptor
      | .invalid _ => none) =
    [some ⟨"CALL", [], some (.address 0x210)⟩, some ⟨"LD", [.reg 2, .pseudo .indirect], none⟩,
      some ⟨"LD", [.pseudo .bcd, .reg 10], none⟩, some ⟨"DRW", [.reg 0, .reg 1], some (.height 5)⟩,
      some ⟨"LD", [.reg 5, .pseudo .key], none⟩] := by decide

/-! ### The tick -/

theorem test_EC2_odd_pc : after (State.reset.writePc 0x201) 0x6105
    (fun t => t.readV 1 == 5 && t.pc == 0x203) = true := by decide

theorem test_EC3_last_pc : ticked (State.reset.writePc 0xFFE)
    (fun t => t.pc == 0x1000 && t.fault == none) = true := by decide

theorem test_EC6_fetch_bounds :
    ticked { State.reset with pc := 0xFFF, dt := 5, st := 5 } (fun t =>
      t.fault == some ⟨.fetchBounds, none, 0xFFF, none⟩ && t.dt == 5 && t.st == 5) = true := by decide

theorem test_EC8_decode_failure : after State.reset 0x8008 (fun t =>
    t.fault == some ⟨.decodeFailure, some 0x8008, 0x200, none⟩ && t.pc == 0x200) = true := by decide

theorem test_TK10_waiting_no_key :
    ticked { State.reset with wait := some 5, dt := 1, pc := 0x202 } (fun t =>
      t.wait == some 5 && t.dt == 0 && t.pc == 0x202) = true := by decide

/-- TK11, with the key driven by the host before this tick. -/
theorem test_TK11_waiting_key :
    ticked { State.reset with wait := some 5, pc := 0x202, keyInput := [keypad [0xC]] } (fun t =>
      t.readV 5 == 0x0C && t.wait == none && t.pc == 0x202) = true := by decide

/-! ### Control transfer -/

theorem test_CF12_sys : after State.reset 0x0000 (fun t => t.pc == 0x202) = true := by decide
theorem test_CF1_jp : after State.reset 0x1228 (fun t => t.pc == 0x228) = true := by decide
theorem test_CF5_call : after { State.reset with pc := 0x204, sp := 15 } 0x2300
    (fun t => t.stack[15] == 0x206 && t.sp == 16 && t.pc == 0x300) = true := by decide
theorem test_CF6_call_overflow : after { State.reset with pc := 0x204, sp := 16 } 0x2300
    (fun t => t.fault == some ⟨.stackOverflow, some 0x2300, 0x204, none⟩ && t.sp == 16 &&
      t.pc == 0x204) = true := by decide
theorem test_CF7_ret : after { State.reset with sp := 1, stack := State.reset.stack.set 0 0x206 } 0x00EE
    (fun t => t.sp == 0 && t.pc == 0x206) = true := by decide
theorem test_CF8_ret_underflow : after (State.reset.writePc 0x300) 0x00EE
    (fun t => t.fault == some ⟨.stackUnderflow, some 0x00EE, 0x300, none⟩) = true := by decide
theorem test_CF10_jpV0 : after (regs [(0, 0xFF)]) 0xBFFF (fun t => t.pc == 0x10FE) = true := by decide
theorem test_CF11_jpV0_not_vx : after (regs [(1, 5)]) 0xB123 (fun t => t.pc == 0x123) = true := by
  decide

/-! ### Skips -/

theorem test_SK1_seImm : after (regs [(3, 0x42)]) 0x3342 (fun t => t.pc == 0x204) = true := by decide
theorem test_SK2_seImm : after (regs [(3, 0x41)]) 0x3342 (fun t => t.pc == 0x202) = true := by decide
theorem test_SK3_sneImm : after (regs [(3, 0x41)]) 0x4342 (fun t => t.pc == 0x204) = true := by decide
theorem test_SK6_seReg : after (regs [(1, 7), (2, 7)]) 0x5127 (fun t => t.pc == 0x204) = true := by
  decide
theorem test_SK8_sneReg : after (regs [(1, 7), (2, 8)]) 0x9120 (fun t => t.pc == 0x204) = true := by
  decide
theorem test_SK9_sneReg : after (regs [(1, 7)]) 0x9110 (fun t => t.pc == 0x202) = true := by decide
theorem test_SK12_skp : after { regs [(5, 0xA)] with keys := keypad [0xA] } 0xE59E
    (fun t => t.pc == 0x204) = true := by decide
theorem test_SK16_skp_key_index : after (regs [(5, 0x10)]) 0xE59E (fun t =>
    t.fault == some ⟨.keyIndex, some 0xE59E, 0x200, some 0x10⟩) = true := by decide
theorem test_SK14_sknp : after (regs [(5, 0xA)]) 0xE5A1 (fun t => t.pc == 0x204) = true := by decide

/-! ### ALU -/

theorem test_AL1_ldImm : after State.reset 0x6A2F (fun t => t.readV 10 == 0x2F) = true := by decide
theorem test_AL3_addImm : after (regs [(1, 0xFF)]) 0x7102
    (fun t => t.readV 1 == 1 && t.readV 15 == 0) = true := by decide
theorem test_AL7_ldReg : after (regs [(2, 0x99)]) 0x8120 (fun t => t.readV 1 == 0x99) = true := by
  decide
theorem test_AL8_orReg : after (regs [(1, 0xF0), (2, 0x0F), (15, 0x55)]) 0x8121
    (fun t => t.readV 1 == 0xFF && t.readV 15 == 0x55) = true := by decide
theorem test_AL9_andReg : after (regs [(1, 0xF0), (2, 0x3C), (15, 0x55)]) 0x8122
    (fun t => t.readV 1 == 0x30 && t.readV 15 == 0x55) = true := by decide
theorem test_AL10_xorReg : after (regs [(1, 0xF0), (2, 0x3C), (15, 0x55)]) 0x8123
    (fun t => t.readV 1 == 0xCC && t.readV 15 == 0x55) = true := by decide
theorem test_W2_addReg : after (regs [(1, 250), (2, 10)]) 0x8124
    (fun t => t.readV 1 == 4 && t.readV 15 == 1) = true := by decide
theorem test_AL16_addReg_vf : after (regs [(15, 200), (1, 100)]) 0x8F14
    (fun t => t.readV 15 == 1) = true := by decide
theorem test_W4_subReg : after (regs [(1, 5), (2, 10)]) 0x8125
    (fun t => t.readV 1 == 251 && t.readV 15 == 0) = true := by decide
theorem test_AL18_subReg_strict : after (regs [(1, 7), (2, 7), (15, 9)]) 0x8125
    (fun t => t.readV 1 == 0 && t.readV 15 == 0) = true := by decide
theorem test_AL26_shr : after (regs [(1, 4), (2, 0xFF)]) 0x8126
    (fun t => t.readV 1 == 2 && t.readV 15 == 0) = true := by decide
theorem test_AL23_shr : after (regs [(1, 5)]) 0x8106
    (fun t => t.readV 1 == 2 && t.readV 15 == 1) = true := by decide
theorem test_AL28_subnReg : after (regs [(1, 5), (2, 10)]) 0x8127
    (fun t => t.readV 1 == 5 && t.readV 15 == 1) = true := by decide
theorem test_AL29_subnReg : after (regs [(1, 10), (2, 5)]) 0x8127
    (fun t => t.readV 1 == 251 && t.readV 15 == 0) = true := by decide
theorem test_W6_shl : after (regs [(1, 0x81)]) 0x810E
    (fun t => t.readV 1 == 2 && t.readV 15 == 1) = true := by decide
theorem test_AL35_shl : after (regs [(1, 1), (2, 0x80)]) 0x812E
    (fun t => t.readV 1 == 2 && t.readV 15 == 0) = true := by decide
/-- AL37, whatever the free byte is. -/
theorem test_AL37_rnd : ∃ t, step (State.reset.withFetchWord 16 0xC300) = .next t ∧
    t.draws = 1 ∧ t.readV 3 = 0 := by
  refine ⟨_, rfl, rfl, ?_⟩
  show Config.randomByte 0 &&& 0x00 = 0
  simp

/-! ### Index register and memory -/

theorem test_IM2_ldI : after State.reset 0xAFFF (fun t => t.i == 0xFFF) = true := by decide
theorem test_IM5_addI : after ((regs [(1, 2)]).writeI 0xFFFF) 0xF11E (fun t => t.i == 1) = true := by
  decide
theorem test_IM6_ldFont : after (regs [(2, 7)]) 0xF229 (fun t => t.i == 0x073) = true := by decide
theorem test_IM10_ldFont : after (regs [(2, 0xFF)]) 0xF229 (fun t => t.i == 0x54B) = true := by decide
theorem test_IM15_ldBcd : after ((regs [(3, 123)]).writeI 0xFFD) 0xF333 (fun t =>
    Memory.bytesFrom t.mem 0xFFD 3 == [1, 2, 3]) = true := by decide
theorem test_IM16_ldBcd_bounds : after ((regs [(3, 123)]).writeI 0xFFE) 0xF333 (fun t =>
    t.fault == some ⟨.memoryBounds, some 0xF333, 0x200, some 0x1000⟩ &&
      Memory.bytesFrom t.mem 0xFFE 2 == [0, 0]) = true := by decide
theorem test_IM17_storeRegs : after ((regs [(0, 1), (1, 2), (2, 3)]).writeI 0x400) 0xF255 (fun t =>
    Memory.bytesFrom t.mem 0x400 4 == [1, 2, 3, 0] && t.i == 0x400) = true := by decide
theorem test_IM20_storeRegs_bounds : after ((regs [(0, 1)]).writeI 0xFF1) 0xFF55 (fun t =>
    t.fault == some ⟨.memoryBounds, some 0xFF55, 0x200, some 0x1000⟩ &&
      Memory.byteAt t.mem 0xFF1 == 0) = true := by decide
theorem test_IM21_loadRegs : after (bytesAt300 [9, 8, 7, 6] State.reset) 0xF265 (fun t =>
    t.readV 0 == 9 && t.readV 1 == 8 && t.readV 2 == 7 && t.readV 3 == 0 && t.i == 0x300) = true := by
  decide
theorem test_IM23_loadRegs_bounds : after (State.reset.writeI 0x1000) 0xF065 (fun t =>
    t.fault == some ⟨.memoryBounds, some 0xF065, 0x200, some 0x1000⟩) = true := by decide

/-! ### Timers and keys -/

theorem test_TK1_ldVxDt : after (State.reset.writeDt 5) 0xF307
    (fun t => t.readV 3 == 5 && t.dt == 4) = true := by decide
theorem test_TK3_ldDtVx : after (regs [(0, 3)]) 0xF015 (fun t => t.dt == 2) = true := by decide
theorem test_TK5_ldDtVx : after ((regs []).writeDt 9) 0xF015 (fun t => t.dt == 0) = true := by decide
theorem test_TK6_ldStVx : after (regs [(0, 2)]) 0xF018 (fun t => t.st == 1) = true := by decide
theorem test_TK8_ldVxKey_parks : after (State.reset.writeDt 2) 0xF50A (fun t =>
    t.wait == some 5 && t.pc == 0x202 && t.readV 5 == 0 && t.dt == 1) = true := by decide
theorem test_TK9_ldVxKey_least : after { State.reset with keys := keypad [9, 3] } 0xF50A (fun t =>
    t.readV 5 == 3 && t.wait == none && t.pc == 0x202) = true := by decide

/-! ### Display -/

theorem test_DR1_cls : after (lit [(0, 0), (31, 63)] (regs [(15, 7)])) 0x00E0 (fun t =>
    !pixel t.fb 0 0 && !pixel t.fb 31 63 && t.readV 15 == 7 && t.fbWritten) = true := by decide
theorem test_DR10_drw : after (bytesAt300 [0x80, 0x00, 0x80] (lit [(0, 0)] State.reset)) 0xD013
    (fun t => !pixel t.fb 0 0 && pixel t.fb 2 0 && t.readV 15 == 1) = true := by decide
theorem test_W9_W10_drw_wraps : after (bytesAt300 [0xFF, 0x81] (regs [(0, 60), (1, 31)])) 0xD012
    (fun t => pixel t.fb 31 63 && pixel t.fb 31 3 && !pixel t.fb 31 4 && pixel t.fb 0 60 &&
      pixel t.fb 0 3 && !pixel t.fb 0 61 && t.readV 15 == 0) = true := by decide

/-! ### Faults and construction -/

/-- D15. -/
theorem test_fault_codes : [FaultKind.decodeFailure, .fetchBounds, .memoryBounds, .stackOverflow,
    .stackUnderflow, .keyIndex, .loadOversize].map FaultKind.code = [1, 2, 3, 4, 5, 6, 7] := by decide

theorem test_RS1_construct : (match construct [0x12, 0x00] Keypad.released [] with
    | .next t => Memory.bytesFrom t.mem 0x200 3 == [0x12, 0, 0] && t.pc == 0x200 && t.sp == 0
    | .fault _ => false
    | .refused _ => false) = true := by decide

theorem test_RS2_font : Memory.bytesFrom State.reset.mem 0x04F 6 = [0, 0xF0, 0x90, 0x90, 0x90, 0xF0] ∧
    Memory.bytesFrom State.reset.mem 0x09B 6 = [0xF0, 0x80, 0xF0, 0x80, 0x80, 0] := by decide

/-! ### Witnesses: states and operands that meet each statement's hypotheses, clause by clause -/

/-- Reset about to fetch `op` at 0x200, with the given registers. -/
def at200 (op : Nat) (l : List (Reg × Byte)) : State := (regs l).withFetchWord 16 op

theorem witness_DecodeOfEncodeIsTheInstruction :
    Instr.wf .cls = true ∧ Instr.wf (.sys 0x0E1) = true ∧ Instr.wf (.drw 15 15 15) = true := by decide

theorem witness_EncodeOfDecodeIsTheWord :
    decode 0x0000 = .instr (.sys 0) ∧ decode 0xFF65 = .instr (.loadRegs 15) ∧
    decode 0xFFFF = .invalid 0xFFFF := by decide

theorem witness_DecoderFollowsTheOpcodeMap :
    (8 : Nibble) ∉ ([0x0, 0x1, 0x2, 0x3, 0x4, 0x5, 0x6, 0x7, 0xE] : List Nibble) ∧
    (0xF : Nibble) ∉ ([0x0, 0x1, 0x2, 0x3, 0x4, 0x5, 0x6, 0x7, 0xE] : List Nibble) ∧
    (0x9F : Byte) ∉ ([0x9E, 0xA1] : List Byte) ∧ (0xA0 : Byte) ∉ ([0x9E, 0xA1] : List Byte) ∧
    (0x66 : Byte) ∉ ([0x07, 0x0A, 0x15, 0x18, 0x1E, 0x29, 0x33, 0x55, 0x65] : List Byte) := by decide

theorem witness_DescriptorDeterminesTheInstruction :
    (Instr.seReg 1 2 0).descriptor = (Instr.seReg 1 2 15).descriptor ∧
    (Instr.jp 0x200).descriptor = (Instr.jp 0x200).descriptor := by decide

/-- One state for each way the instruction can answer: it completes, it faults, it stops. -/
theorem witness_TickRunsTheDecodedInstruction :
    (at200 0x6A2F []).fault = none ∧ (at200 0x6A2F []).wait = none ∧
    (at200 0x6A2F []).pc.toNat + 1 < 4096 ∧
    decode (opcodeOfBytes (Memory.byteAt (at200 0x6A2F []).mem 0x200)
      (Memory.byteAt (at200 0x6A2F []).mem 0x201)) = .instr (.ldImm 10 0x2F) ∧
    ran (.ldImm 10 0x2F) (at200 0x6A2F []).beginTick.advance (fun t => t.fault.isNone) = true ∧
    ran .ret (at200 0x00EE []).beginTick.advance (fun t => t.fault.isSome) = true := by decide

theorem witness_TickRunsTheDecodedInstruction_stops :
    let s : State := { at200 0x2300 [] with sp := 17 }
    s.fault = none ∧ s.wait = none ∧ s.fetch = some 0x2300 ∧ decode 0x2300 = .instr (.call 0x300) ∧
    exec (.call 0x300) s.beginTick.advance = .fault .illegalStackPointer :=
  ⟨rfl, rfl, by decide, by decide, rfl⟩

theorem witness_FetchIsBigEndianOrRaisesFetchBounds :
    (State.reset.writePc 0xFFE).fault = none ∧ (State.reset.writePc 0xFFE).wait = none ∧
    (State.reset.writePc 0xFFE).pc.toNat + 1 < 4096 ∧
    4096 ≤ (State.reset.writePc 0xFFF).pc.toNat + 1 ∧
    4096 ≤ (State.reset.writePc 0xFFFF).pc.toNat + 1 := by decide

theorem witness_InvalidWordRaisesDecodeFailure :
    (at200 0x8008 []).fault = none ∧ (at200 0x8008 []).wait = none ∧
    (at200 0x8008 []).pc.toNat + 1 < 4096 ∧
    opcodeOfBytes (Memory.byteAt (at200 0x8008 []).mem 0x200)
      (Memory.byteAt (at200 0x8008 []).mem 0x201) = 0x8008 ∧
    decode 0x8008 = .invalid 0x8008 ∧ decode 0xEFFF = .invalid 0xEFFF := by decide

/-- A tick that writes DT, one that writes ST (and not DT), and a waiting one. -/
theorem witness_TimersCountDownOncePerTick :
    (at200 0xF015 [(0, 3)]).fault = none ∧ (at200 0xF015 [(0, 3)]).wait = none ∧
    (at200 0xF015 [(0, 3)]).fetch = some (wordXKK 0xF 0 0x15) ∧
    ticked (at200 0xF015 [(0, 3)]) (fun t => t.fault.isNone) = true ∧
    (at200 0xF018 [(0, 0)]).fetch = some (wordXKK 0xF 0 0x18) ∧
    (∀ x : Reg, (at200 0xF018 [(0, 0)]).fetch ≠ some (wordXKK 0xF x 0x15)) ∧
    (∀ x : Reg, (at200 0xF015 [(0, 3)]).fetch ≠ some (wordXKK 0xF x 0x18)) ∧
    ticked (at200 0xF018 [(0, 0)]) (fun t => t.fault.isNone) = true ∧
    (State.reset.writeWait (some 15)).wait ≠ none ∧
    ticked (State.reset.writeWait (some 15)) (fun t => t.fault.isNone) = true := by decide

/-- A waiting core whose next sampled keypad has key 15 alone, and one with no key. -/
theorem witness_WaitingTickConsumesTheLeastPressedKey :
    let s : State := { State.reset.writeWait (some 15) with keyInput := [keypad [15]] }
    s.fault = none ∧ s.wait = some 15 ∧
    ticked s (fun t => t.keys[15] && (List.finRange 15).all fun j => !t.keys[j.val]) = true ∧
    ticked (State.reset.writeWait (some 0)) (fun t => (List.finRange 16).all fun k => !t.keys[k]) = true := by
  decide

theorem witness_WaitWithoutAKeyTicksForever :
    let s : State := { State.reset.writeWait (some 5) with keyInput := [keypad []] }
    s.fault = none ∧ s.wait = some 5 ∧ (∀ k : Reg, s.keys[k] = false) ∧
    ∀ keys ∈ s.keyInput, ∀ k : Reg, keys[k] = false :=
  ⟨rfl, rfl, by decide, fun _ h => List.mem_singleton.1 h ▸ by decide⟩

theorem witness_JumpToSelfIdlesForever :
    (at200 0x1200 []).fault = none ∧ (at200 0x1200 []).wait = none ∧
    (at200 0x1200 []).pc.toNat = (0x200 : Addr12).toNat ∧
    (at200 0x1200 []).fetch = some (wordNNN 0x1 0x200) := by decide

theorem witness_FaultingTickChangesOnlyFault :
    (State.reset.writePc 0xFFF).fault = none ∧
    ticked (State.reset.writePc 0xFFF) (fun t => t.fault.isSome) = true := by decide

theorem witness_FaultIsTerminal :
    ({ State.reset with fault := some ⟨.fetchBounds, none, 0xFFF, none⟩ } : State).fault ≠ none := by
  decide

/-- Both sides of the length check, and an address of each kind the zero clause speaks of. -/
theorem witness_ConstructionLoadsTheProgram :
    0x04F < 4096 ∧ (0x0A0 ≤ 0x1FF ∧ 0x1FF < 0x200) ∧ 0x200 + ([] : List Byte).length ≤ 0x200 ∧
    (List.replicate 3584 (0xFF : Byte)).length ≤ 3584 ∧
    3584 < (List.replicate 3585 (0xFF : Byte)).length ∧ ([] : List Byte).length ≤ 3584 :=
  ⟨by decide, by decide, by decide, Nat.le_of_eq List.length_replicate, List.length_replicate ▸ Nat.lt_succ_self 3584, Nat.zero_le _⟩

theorem witness_SysIsANoOp :
    (0x0EF : Addr12) ≠ 0x0E0 ∧ (0x0EF : Addr12) ≠ 0x0EE ∧ (at200 0x00EF []).fault = none ∧
    (at200 0x00EF []).wait = none ∧ (at200 0x00EF []).fetch = some (wordNNN 0x0 0x0EF) := by decide

theorem witness_JumpsSetPc :
    (regs [(0, 0xFF)]).fault = none ∧ (regs [(0, 0xFF)]).wait = none ∧ (0xFFF : Addr12).toNat = 0xFFF ∧
    0xFFF ≤ (0xF00 : Addr12).toNat + ((regs [(0, 0xFF)]).readV 0).toNat ∧
    0xFFF ≤ (0xFFF : Addr12).toNat + ((regs []).readV 0).toNat := by decide

theorem witness_CallPushesPcOrRaisesStackOverflow :
    ({ State.reset with sp := 15 } : State).sp.toNat < 16 ∧
    ({ State.reset with sp := 16 } : State).sp.toNat = 16 := by decide

theorem witness_RetPopsPcOrRaisesStackUnderflow :
    ({ State.reset with sp := 16 } : State).sp.toNat - 1 < 16 ∧
    0 < ({ State.reset with sp := 16 } : State).sp.toNat ∧
    ({ State.reset with sp := 1 } : State).sp.toNat - 1 < 16 ∧
    0 < ({ State.reset with sp := 1 } : State).sp.toNat ∧ State.reset.sp.toNat = 0 := by decide

theorem witness_IllegalStackPointerStopsCallAndRet :
    16 < ({ State.reset with sp := 17 } : State).sp.toNat ∧
    16 < ({ State.reset with sp := 255 } : State).sp.toNat := by decide

theorem witness_NestedCallsAndReturnsRestoreSp :
    State.reset.sp.toNat + (List.replicate 16 (0x300 : Addr12)).length ≤ 16 ∧
    16 ≤ (List.replicate 16 (0x300 : Addr12)).length ∧
    ({ State.reset with sp := 15 } : State).sp.toNat + ([0xFFF] : List Addr12).length ≤ 16 ∧
    1 ≤ ([0xFFF] : List Addr12).length := by decide

theorem witness_KeySkipsReadTheKeyLine :
    ((regs [(15, 15)]).readV 15).toNat < 16 ∧ ((regs [(15, 0)]).readV 15).toNat < 16 ∧
    15 < ((regs [(5, 16)]).readV 5).toNat ∧ 15 < ((regs [(5, 255)]).readV 5).toNat := by decide

/-- x ≠ 15, the form in which the result itself can be read after the flag is written. -/
theorem witness_AddAndSubtractWriteResultThenFlag :
    (14 : Reg) ≠ 15 ∧ ((regs [(14, 255)]).readV 14).toNat = 255 := by decide

theorem witness_ShiftsWriteResultThenFlag :
    (0 : Reg) ≠ 15 ∧ ((regs [(0, 0x81)]).readV 0).toNat = 0x81 := by decide

theorem witness_BcdStoresThreeDigits :
    Memory.wf (State.reset.writeI 0xFFD).mem = true ∧ (State.reset.writeI 0xFFD).i.toNat + 2 < 4096 ∧
    4096 ≤ (State.reset.writeI 0xFFE).i.toNat + 2 ∧
    4096 ≤ (State.reset.writeI 0xFFFF).i.toNat + 2 := by decide

theorem witness_StoreRegistersWritesV0ToVx :
    Memory.wf (State.reset.writeI 0xFF0).mem = true ∧
    (State.reset.writeI 0xFF0).i.toNat + (15 : Reg).val < 4096 ∧
    4096 ≤ (State.reset.writeI 0xFF1).i.toNat + (15 : Reg).val ∧
    4096 ≤ (State.reset.writeI 0x1000).i.toNat + (0 : Reg).val := by decide

theorem witness_LoadRegistersReadsV0ToVx :
    (State.reset.writeI 0xFFF).i.toNat + (0 : Reg).val < 4096 ∧
    (State.reset.writeI 0xFF0).i.toNat + (15 : Reg).val < 4096 ∧
    4096 ≤ (State.reset.writeI 0xFF1).i.toNat + (15 : Reg).val := by decide

/-- The store's own state `t`, with the registers cleared afterwards (W11). -/
theorem witness_StoreThenLoadRestoresRegisters :
    let s := (regs [(0, 1), (1, 2)]).writeI 0x400
    ∃ t, Memory.wf s.mem = true ∧ s.i.toNat + (1 : Reg).val < 4096 ∧
      exec (.storeRegs 1) s = .next t ∧ ((t.writeV 0 0).writeV 1 0).i = t.i ∧
      ∀ k ≤ (1 : Reg).val, Keeps t ((t.writeV 0 0).writeV 1 0) (.byte (s.i.toNat + k)) :=
  ⟨_, by decide, by decide, rfl, rfl, fun _ _ => rfl⟩

theorem witness_BcdThenLoadSpellsTheValue :
    Memory.wf ((regs [(3, 254)]).writeI 0xFFD).mem = true ∧
    ((regs [(3, 254)]).writeI 0xFFD).i.toNat + 2 < 4096 := by decide

theorem witness_StoreToTheNextInstructionIsFetched :
    let s := (at200 0xFF55 [(0, 0x12), (1, 0x04)]).writeI 0x202
    Memory.wf s.mem = true ∧ s.fault = none ∧ s.wait = none ∧
    s.fetch = some (wordXKK 0xF 15 0x55) ∧ 1 ≤ (15 : Reg).val ∧ s.i.toNat = s.pc.toNat + 2 ∧
    s.i.toNat + (15 : Reg).val < 4096 := by decide

/-- Keys 3 and 9 pressed: 3 is the least. -/
theorem witness_KeyWaitTakesTheLeastKeyOrParks :
    (keypad [9, 3])[(3 : Reg)] = true ∧ (∀ j < (3 : Reg), (keypad [9, 3])[j] = false) ∧
    (∀ k : Reg, State.reset.keys[k] = false) := by decide

/-- n = 0 beyond memory; a sprite that ends at 0xFFF; one that ends past it. -/
theorem witness_DrawXorsTheSprite :
    ((0 : Nibble).val = 0 ∨ (State.reset.writeI 0xFFFF).i.toNat + (0 : Nibble).val ≤ 4096) ∧
    (State.reset.writeI 0xFF1).i.toNat + (15 : Nibble).val ≤ 4096 ∧
    0 < (1 : Nibble).val ∧ 4096 < (State.reset.writeI 0x1000).i.toNat + (1 : Nibble).val ∧
    4096 < (State.reset.writeI 0xFFF).i.toNat + (2 : Nibble).val := by decide

/-- A sprite bit that toggles a pixel that is on, and a pixel no sprite bit touches. -/
theorem witness_DrawXorsTheSprite_pixels :
    let s := bytesAt300 [0x80] (lit [(0, 0)] State.reset)
    SpriteCovers s 0 0 1 0 0 ∧ pixel s.fb 0 0 = true ∧ ¬ SpriteCovers s 0 0 1 1 0 := by
  unfold SpriteCovers
  decide

/-- One sprite byte, drawn, with nothing changed in between (W7); no pixel of `s` is on. -/
theorem witness_DrawingTwiceRestoresTheScreen :
    let s := bytesAt300 [0xFF] State.reset
    ((1 : Nibble).val = 0 ∨ s.i.toNat + (1 : Nibble).val ≤ 4096) ∧ (∃ t, exec (.drw 0 1 1) s = .next t ∧
      t.readV 0 = s.readV 0 ∧ t.readV 1 = s.readV 1 ∧ t.i = s.i ∧
      (∀ r c, Keeps t t (.pixel r c)) ∧
      ∀ row < (1 : Nibble).val, Keeps s t (.byte (s.i.toNat + row))) ∧
    pixel s.fb 0 0 = false ∧ Memory.byteAt s.mem (s.i.toNat + 0) ≠ 0 :=
  ⟨by decide, ⟨_, rfl, by decide, by decide, rfl, fun _ _ => rfl, fun _ _ => rfl⟩, by decide, by decide⟩

/-- The covered pixel was on: the case in which R195's second sentence does not follow (log 15). -/
theorem witness_SecondDrawOfASetBitAlwaysCollides :
    let s := bytesAt300 [0x80] (lit [(0, 0)] State.reset)
    s.i.toNat + (1 : Nibble).val ≤ 4096 ∧ ∃ t, exec (.drw 0 1 1) s = .next t ∧
      t.readV 0 = s.readV 0 ∧ t.readV 1 = s.readV 1 ∧ t.i = s.i ∧
      (∀ r c, Keeps t t (.pixel r c)) ∧
      (∀ row < (1 : Nibble).val, Keeps s t (.byte (s.i.toNat + row))) ∧
      (∃ row < (1 : Nibble).val, Memory.byteAt s.mem (s.i.toNat + row) ≠ 0) ∧
      ∃ w, exec (.drw 0 1 1) t = .next w :=
  ⟨by decide, _, rfl, by decide, by decide, rfl, fun _ _ => rfl, fun _ _ => rfl,
    ⟨0, by decide, by decide⟩, _, rfl⟩

/-- The same, for no rows with I past the end of memory: the other arm of the premise. -/
theorem witness_DrawingTwiceRestoresTheScreen_no_rows :
    let s := State.reset.writeI 0xFFFF
    ((0 : Nibble).val = 0 ∨ s.i.toNat + (0 : Nibble).val ≤ 4096) ∧ ∃ t, exec (.drw 0 1 0) s = .next t ∧
      t.readV 0 = s.readV 0 ∧ t.readV 1 = s.readV 1 ∧ t.i = s.i :=
  ⟨.inl rfl, _, rfl, by decide, by decide, rfl⟩

theorem witness_DrawTogglesAsManyPixelsAsSetBits :
    (bytesAt300 [0xFF, 0x81] State.reset).i.toNat + (2 : Nibble).val ≤ 4096 ∧
    ran (.drw 0 1 2) (bytesAt300 [0xFF, 0x81] State.reset) (fun _ => true) = true ∧
    ((0 : Nibble).val = 0 ∨ (State.reset.writeI 0xFFFF).i.toNat + (0 : Nibble).val ≤ 4096) ∧
    ran (.drw 0 1 0) (State.reset.writeI 0xFFFF) (fun _ => true) = true := by decide

theorem witness_ConstructedStatesAreLegal :
    construct [] Keypad.released [] = .next State.reset := rfl

theorem reset_legal : State.reset.Legal :=
  ⟨by decide, by decide, fun _ h => (nomatch h), fun h => (nomatch h), fun h => (nomatch h)⟩

/-- A legal state that ticks. -/
theorem witness_EveryTickKeepsTheStateLegal :
    State.reset.Legal ∧ ticked State.reset (fun t => t.pc == 0x202) = true :=
  ⟨reset_legal, by decide⟩

/-- Every clause of a MemoryBounds record is met: the second row of DRW at 0xFFF (DR14). -/
theorem witness_memoryBounds_truthful :
    let s := { (at200 0xD002 []).writeI 0xFFF with fault := some ⟨.memoryBounds, some 0xD002, 0x200, some 0x1000⟩ }
    s.fetch = some 0xD002 ∧ decode 0xD002 = .instr (.drw 0 0 2) ∧
    lastAccess (.drw 0 0 2) s = some 0x1000 ∧ Config.memSize ≤ 0x1000 ∧
    max s.i.toNat Config.memSize = 0x1000 := by decide

theorem witness_LegalStatesNeverStop : State.reset.Legal := reset_legal

theorem witness_EverySessionRunsForever : Reachable State.reset :=
  .constructed [] Keypad.released [] _ rfl

theorem witness_OnlyListedInstructionsWriteEachPart :
    Memory.wf ((regs [(3, 254)]).writeI 0x300).mem = true ∧
    ((regs [(3, 254)]).writeI 0x300).fault = none ∧
    ran (.ldBcd 3) ((regs [(3, 254)]).writeI 0x300) (fun t => t.fault.isNone) = true := by decide

/-- An instruction that defines a flag, and one that does not and has another destination. -/
theorem witness_OnlyFlagInstructionsTouchVfAsASideEffect :
    State.reset.fault = none ∧ definesFlag (.addReg 1 2) = true ∧
    ran (.addReg 1 2) State.reset (fun t => t.fault.isNone) = true ∧
    definesFlag (.addImm 1 0xFF) = false ∧ ¬ hasDestination (.addImm 1 0xFF) 15 ∧
    ran (.addImm 1 0xFF) State.reset (fun t => t.fault.isNone) = true :=
  ⟨rfl, rfl, by decide, rfl, by simp [hasDestination], by decide⟩

theorem witness_SoundTimerAffectsOnlyItself :
    ticked (State.reset.writeSt 9) (fun t => t.st == 8) = true := by decide

theorem witness_StatesThatReadTheSameAreEqual :
    Memory.wf (at200 0x1228 []).mem = true ∧ KeepsAllBut [] (at200 0x1228 []) (at200 0x1228 []) :=
  ⟨by decide, fun p _ => by cases p <;> rfl⟩

/-- At a PC that fetches and at one that does not. -/
theorem witness_PlacedWordRunsNext :
    Memory.wf State.reset.mem = true ∧ 0xD7A3 < 65536 ∧
    decodeTableWord 16 0xD7A3 = some (.drw 7 10 3) ∧ State.reset.pc.toNat + 1 < 4096 ∧
    ¬ (State.reset.writePc 0xFFF).pc.toNat + 1 < 4096 := by decide

end Sys2Proof.Tests
end

section
/-! Which registers an instruction can change (10_state.md R20, first row), and what a flag instruction
leaves in VF (R22). -/

namespace Sys2Proof.Machine

/-! ### Registers across the shared operations -/

@[simp] theorem readV_skipIf (s : State) (c : Bool) (r : Reg) : (s.skipIf c).readV r = s.readV r := by
  simp [skipIf_eq]

/-- A checked access leaves the registers as `done` or as `s` has them: a fault writes none (R218). -/
theorem readV_of_checkRange {op : Word} {base len : Nat} {s done t : State} {r : Reg}
    (h : checkRange op base len s done = .next t) (hdone : done.readV r = s.readV r) :
    t.readV r = s.readV r := by
  rcases checkRange_cases h with ⟨rfl, -⟩ | ⟨rfl, -⟩
  · exact hdone
  · simp

theorem readV_of_skipOnKey {op : Word} {x : Reg} {wanted : Bool} {s t : State}
    (h : skipOnKey op x wanted s = .next t) (r : Reg) : t.readV r = s.readV r := by
  unfold skipOnKey at h
  split at h <;> cases h <;> simp

theorem readV_of_execCall {nnn : Addr12} {s t : State} (h : execCall nnn s = .next t) (r : Reg) :
    t.readV r = s.readV r := by
  unfold execCall at h
  split_ifs at h <;> cases h <;> simp

theorem readV_of_execRet {s t : State} (h : execRet s = .next t) (r : Reg) :
    t.readV r = s.readV r := by
  unfold execRet at h
  split at h
  · cases h; simp
  · split at h <;> cases h; simp

theorem readV_of_execLdVxKey {x r : Reg} {s t : State} (h : execLdVxKey x s = .next t) (hr : r ≠ x) :
    t.readV r = s.readV r := by
  unfold execLdVxKey at h
  split at h <;> cases h <;> simp [hr]

/-- Registers past the end of the loaded run are unchanged (44_index_memory.md R156). -/
theorem readV_writeFirstV_of_length_le (s : State) {bs : List Byte} {r : Reg} (h : bs.length ≤ r.val) :
    (s.writeFirstV bs).readV r = s.readV r := by
  rw [readV_writeFirstV, List.getD_eq_default _ _ h]

theorem readV_writeResultFlag_ne (s : State) {x r : Reg} (b : Byte) (f : Bool) (hx : r ≠ x)
    (hF : r ≠ flagReg) : (s.writeResultFlag x b f).readV r = s.readV r := by
  rw [readV_writeResultFlag, if_neg hF, if_neg hx]

@[simp] theorem readV_writeResultFlag_flagReg (s : State) (x : Reg) (b : Byte) (f : Bool) :
    (s.writeResultFlag x b f).readV flagReg = flagByte f := by
  rw [readV_writeResultFlag, if_pos rfl]

theorem flagByte_eq_zero_or_one (f : Bool) : flagByte f = 0 ∨ flagByte f = 1 := by
  cases f <;> decide

/-! ### Registers across an instruction -/

/-- The register frame of every instruction, completing or faulting: V[r] is unchanged unless it is a
named destination, or VF of an instruction that defines a flag. -/
theorem readV_of_exec {i : Instr} {s t : State} {r : Reg} (h : exec i s = .next t)
    (hdest : ¬ hasDestination i r) (hflag : definesFlag i = true → r ≠ flagReg) :
    t.readV r = s.readV r := by
  cases i with
  | cls | sys | jp | ldI | jpV0 | ldDtVx | ldStVx | addI | ldFont => cases h; simp
  | seImm | sneImm | seReg | sneReg => cases h; exact readV_skipIf ..
  | skp | sknp => exact readV_of_skipOnKey h r
  | call => exact readV_of_execCall h r
  | ret => exact readV_of_execRet h r
  | ldImm | addImm | ldReg | orReg | andReg | xorReg | rnd | ldVxDt =>
    cases h
    exact readV_writeV_ne _ _ hdest
  | ldVxKey => exact readV_of_execLdVxKey h hdest
  | addReg | subReg | shr | subnReg | shl =>
    cases h
    exact readV_writeResultFlag_ne _ _ _ hdest (hflag rfl)
  | drw => exact readV_of_checkRange h (by simp [hflag rfl])
  | ldBcd | storeRegs => exact readV_of_checkRange h (readV_storeBytes ..)
  | loadRegs x =>
    have hpast : x < r := not_le.1 hdest
    exact readV_of_checkRange h (readV_writeFirstV_of_length_le s (by simpa using hpast))

/-- A flag instruction that completes ends with its flag in VF. A DRW that faults leaves VF as it was,
so the premise on FAULT is needed. -/
theorem readV_flagReg_of_definesFlag {i : Instr} {s t : State} (h : exec i s = .next t)
    (ht : t.fault = none) (hi : definesFlag i = true) : ∃ f, t.readV flagReg = flagByte f := by
  cases i with
  | addReg | subReg | shr | subnReg | shl => cases h; exact ⟨_, readV_writeResultFlag_flagReg ..⟩
  | drw x y n =>
    rcases checkRange_cases h with ⟨rfl, -⟩ | ⟨rfl, -⟩
    · exact ⟨_, readV_writeV_same ..⟩
    · cases ht
  | _ => cases hi

/-- Settles O51, by the flag each flag instruction leaves in VF and the register frame of the others. -/
theorem onlyFlagInstructionsTouchVfAsASideEffect :
    Obligations.OnlyFlagInstructionsTouchVfAsASideEffect := by
  intro i s t _ h ht
  constructor
  · intro hi
    obtain ⟨f, hf⟩ := readV_flagReg_of_definesFlag h ht hi
    exact hf ▸ flagByte_eq_zero_or_one f
  · intro hi hdest
    exact readV_of_exec h hdest (by simp [hi])

end Sys2Proof.Machine
end

section
/-! What the decoder does on band 0 (30_encoding.md R60). Within one band the low twelve bits nnn
determine the word, so comparing the word with CLS's or RET's compares nnn. -/

namespace Sys2Proof

theorem encNNN_inj {b : BitVec 4} {nnn m : Addr12} : encNNN b nnn = encNNN b m ↔ nnn = m := by
  constructor
  · intro h
    simpa using congrArg fieldNNN h
  · exact congrArg (encNNN b)

theorem encNNN_zero_eq_cls_iff {nnn : Addr12} : encNNN 0 nnn = 0x00E0 ↔ nnn = 0x0E0 :=
  encNNN_inj (b := 0) (m := 0x0E0)

theorem encNNN_zero_eq_ret_iff {nnn : Addr12} : encNNN 0 nnn = 0x00EE ↔ nnn = 0x0EE :=
  encNNN_inj (b := 0) (m := 0x0EE)

theorem decode_of_bandOf_eq_zero {op : Word} (h : bandOf op = 0) : decode op = decodeBand0 op := by
  simp only [decode, h]

theorem decodeBand0_encNNN_zero (nnn : Addr12) : decodeBand0 (encNNN 0 nnn) =
    .instr (if nnn = 0x0E0 then .cls else if nnn = 0x0EE then .ret else .sys nnn) := by
  rw [decodeBand0, fieldNNN_encNNN, apply_ite Decoded.instr, apply_ite Decoded.instr]
  simp only [encNNN_zero_eq_cls_iff, encNNN_zero_eq_ret_iff]

/-- Settles O3: the word is `encNNN 0 nnn`, of band 0, and the if-chain of `decodeBand0` reads nnn. -/
theorem bandZeroDecodesToClsRetOrSys : Obligations.BandZeroDecodesToClsRetOrSys := by
  intro nnn
  have hword : wordNNN 0x0 nnn = encNNN 0 nnn := wordNNN_eq_encNNN 0 nnn
  have hband : bandOf (encNNN 0 nnn) = 0 := bandOf_encNNN 0 nnn
  rw [hword, decode_of_bandOf_eq_zero hband, decodeBand0_encNNN_zero]

end Sys2Proof
end

section
/-! A whole tick whose instruction completes (40_engine_cycle.md R73), what the parts of a tick around
the instruction leave unchanged, and SYS nnn (41_control_flow.md R81). -/

namespace Sys2Proof.Machine

/-- Step 2 writes PC only (R69). -/
theorem keeps_advance (s : State) : KeepsAllBut [.pc] s s.advance := by
  intro p hp
  cases p with
  | pc => simp at hp
  | _ => rfl

/-- Step 4 writes the timers only (R71). -/
theorem keeps_countTimers (s : State) : KeepsAllBut [.dt, .st] s s.countTimers := by
  intro p hp
  cases p with
  | dt | st => simp at hp
  | _ => rfl

/-- A tick whose instruction completes without a fault ends with step 4 (R71, R73). -/
theorem step_of_completes {s u : State} {op : Word} {i : Instr} (hf : s.fault = none)
    (hw : s.wait = none) (ho : s.fetch = some op) (hd : decode op = .instr i)
    (he : exec i s.beginTick.advance = .next u) (hu : u.fault = none) :
    step s = .next u.countTimers := by
  rw [step_of_instr hf hw ho hd, he]
  simp [finishTick, hu]

theorem exec_sys (nnn : Addr12) (s : State) : exec (.sys nnn) s = .next s := rfl

theorem decode_wordNNN_zero_of_ne {nnn : Addr12} (hcls : nnn ≠ 0x0E0) (hret : nnn ≠ 0x0EE) :
    decode (wordNNN 0x0 nnn) = .instr (.sys nnn) := by
  rw [bandZeroDecodesToClsRetOrSys nnn, if_neg hcls, if_neg hret]

/-- Steps 1, 2 and 4 around an instruction that does nothing: PC, the timers and the host's side. -/
theorem keeps_countTimers_advance_beginTick (s : State) :
    KeepsUnless (fun p => p ∈ [.pc, .dt, .st] ∨ HostSide p) s s.beginTick.advance.countTimers := by
  intro p hp
  obtain ⟨hlist, hhost⟩ := not_or.1 hp
  have hbegin := keeps_beginTick s p hhost
  have hadvance := keeps_advance s.beginTick p (by simp_all)
  have htimers := keeps_countTimers s.beginTick.advance p (by simp_all)
  exact (hbegin.trans hadvance).trans htimers

/-- Settles O18: exec of SYS is the identity, so its tick is steps 1, 2 and 4 alone. -/
theorem sysIsANoOp : Obligations.SysIsANoOp := by
  intro nnn s hcls hret
  have hdecode := decode_wordNNN_zero_of_ne hcls hret
  refine ⟨hdecode, ⟨s, exec_sys nnn s, fun p _ => Keeps.refl p⟩, ?_⟩
  intro hf hw ho
  have hstep : step s = .next s.beginTick.advance.countTimers :=
    step_of_completes hf hw ho hdecode (exec_sys nnn _) (by simpa using hf)
  exact ⟨_, hstep, by simp, by simp [toNat_countDown], by simp [toNat_countDown],
    keeps_countTimers_advance_beginTick s⟩

end Sys2Proof.Machine
end

section
/-! The words of bands 6 and 7, which carry x and kk, and the move and addition of an immediate
(43_alu.md R122, R123). -/

namespace Sys2Proof

theorem decode_of_bandOf_eq_six {op : Word} (h : bandOf op = 6) :
    decode op = .instr (.ldImm (fieldX op) (fieldKK op)) := by
  simp only [decode, h]

theorem decode_of_bandOf_eq_seven {op : Word} (h : bandOf op = 7) :
    decode op = .instr (.addImm (fieldX op) (fieldKK op)) := by
  simp only [decode, h]

theorem decode_wordXKK_six (x : Reg) (kk : Byte) :
    decode (wordXKK 0x6 x kk) = .instr (.ldImm x kk) := by
  have hword : wordXKK 0x6 x kk = encXKK 6 x kk := wordXKK_eq_encXKK 6 x kk
  have hband : bandOf (encXKK 6 x kk) = 6 := bandOf_encXKK 6 x kk
  rw [hword, decode_of_bandOf_eq_six hband, fieldX_encXKK, fieldKK_encXKK]

theorem decode_wordXKK_seven (x : Reg) (kk : Byte) :
    decode (wordXKK 0x7 x kk) = .instr (.addImm x kk) := by
  have hword : wordXKK 0x7 x kk = encXKK 7 x kk := wordXKK_eq_encXKK 7 x kk
  have hband : bandOf (encXKK 7 x kk) = 7 := bandOf_encXKK 7 x kk
  rw [hword, decode_of_bandOf_eq_seven hband, fieldX_encXKK, fieldKK_encXKK]

namespace Machine

/-- A register write changes that register only, so VF is kept when it is another one. -/
theorem keeps_writeV (s : State) (x : Reg) (b : Byte) : KeepsAllBut [.reg x] s (s.writeV x b) := by
  intro p hp
  cases p with
  | reg y =>
    have hyx : y ≠ x := by simpa using hp
    exact readV_writeV_ne s b hyx
  | _ => rfl

theorem exec_ldImm (x : Reg) (kk : Byte) (s : State) :
    exec (.ldImm x kk) s = .next (s.writeV x kk) := rfl

theorem exec_addImm (x : Reg) (kk : Byte) (s : State) :
    exec (.addImm x kk) s = .next (s.writeV x (s.readV x + kk)) := rfl

/-- Settles O26: each word decodes to its instruction, which is a single write of V[x]. -/
theorem immediateMoveAndAddWriteVx : Obligations.ImmediateMoveAndAddWriteVx := by
  intro x kk s
  refine ⟨decode_wordXKK_six x kk, decode_wordXKK_seven x kk, ?_, ?_⟩
  · exact ⟨_, exec_ldImm x kk s, readV_writeV_same s x kk, keeps_writeV s x kk⟩
  · have hsum : ((s.writeV x (s.readV x + kk)).readV x).toNat =
        ((s.readV x).toNat + kk.toNat) % 256 := by
      rw [readV_writeV_same, BitVec.toNat_add]
    exact ⟨_, exec_addImm x kk s, hsum, keeps_writeV s x _⟩

end Machine

end Sys2Proof
end

section
/-! The words of band A, which carry nnn, and the load of I with an address (44_index_memory.md R151). -/

namespace Sys2Proof

theorem decode_of_bandOf_eq_ten {op : Word} (h : bandOf op = 10) :
    decode op = .instr (.ldI (fieldNNN op)) := by
  simp only [decode, h]

theorem decode_wordNNN_ten (nnn : Addr12) : decode (wordNNN 0xA nnn) = .instr (.ldI nnn) := by
  have hword : wordNNN 0xA nnn = encNNN 10 nnn := wordNNN_eq_encNNN 10 nnn
  have hband : bandOf (encNNN 10 nnn) = 10 := bandOf_encNNN 10 nnn
  rw [hword, decode_of_bandOf_eq_ten hband, fieldNNN_encNNN]

namespace Machine

/-- Zero extension keeps the value of a 12-bit address operand. -/
@[simp] theorem toNat_addressOf (nnn : Addr12) : (addressOf nnn).toNat = nnn.toNat :=
  BitVec.toNat_setWidth_of_le (by decide)

/-- A write of I changes no other part. -/
theorem keeps_writeI (s : State) (w : Word) : KeepsAllBut [.i] s (s.writeI w) := by
  intro p hp
  cases p with
  | i => simp at hp
  | _ => rfl

theorem exec_ldI (nnn : Addr12) (s : State) :
    exec (.ldI nnn) s = .next (s.writeI (addressOf nnn)) := rfl

/-- Settles O31: Annn decodes to LD I, which is a single write of I with an address that fits it. -/
theorem loadIndexSetsI : Obligations.LoadIndexSetsI := by
  intro nnn s
  have hi : (s.writeI (addressOf nnn)).i.toNat = nnn.toNat := by
    rw [writeI_i, toNat_addressOf]
  exact ⟨decode_wordNNN_ten nnn, _, exec_ldI nnn s, hi, keeps_writeI s _⟩

end Machine

end Sys2Proof
end

section
/-! The encoder and the decoder are inverse to each other (30_encoding.md R56 to R64), and the opcode
map of bands 1 to F read off that. -/

namespace Sys2Proof

/-! ### Decode after encode -/

/-- SYS is well formed where its word is neither CLS's nor RET's, which have priority (R60). -/
theorem decode_encode_sys {nnn : Addr12} (h : (Instr.sys nnn).wf = true) :
    decode (encode (.sys nnn)) = .instr (.sys nnn) := by
  obtain ⟨hcls, hret⟩ : nnn ≠ 0x0E0 ∧ nnn ≠ 0x0EE := by simpa [Instr.wf] using h
  have hband : bandOf (encNNN 0 nnn) = 0 := bandOf_encNNN 0 nnn
  rw [encode, decode_of_bandOf_eq_zero hband, decodeBand0_encNNN_zero, if_neg hcls, if_neg hret]

/-- The decoder reads back the fields that the encoder laid out. -/
theorem decode_encode {i : Instr} (h : i.wf = true) : decode (encode i) = .instr i := by
  cases i with
  | cls | ret => decide
  | sys nnn => exact decode_encode_sys h
  | jp | call | ldI | jpV0 => simp [encode, decode]
  | seImm | sneImm | ldImm | addImm | rnd => simp [encode, decode]
  | seReg | sneReg | drw => simp [encode, decode]
  | ldReg | orReg | andReg | xorReg | addReg | subReg | shr | subnReg | shl =>
    simp [encode, decode, decodeBand8]
  | skp | sknp => simp [encode, decode, decodeBandE]
  | ldVxDt | ldVxKey | ldDtVx | ldStVx | addI | ldFont | ldBcd | storeRegs | loadRegs =>
    simp [encode, decode, decodeBandF]

/-- Settles O1: the word by `decode_encode`, its bytes because they form the word again. -/
theorem decodeOfEncodeIsTheInstruction : Obligations.DecodeOfEncodeIsTheInstruction := by
  intro i hi
  refine ⟨decode_encode hi, fun rest => ?_⟩
  simp [encodeBytes, decodeBytes, decode_encode hi]

/-! ### Encode after decode -/

section fields
variable {op : Word} {b : BitVec 4}

/-- A word is its band and its low twelve bits. -/
theorem encNNN_fieldNNN (hb : bandOf op = b.toNat) : encNNN b (fieldNNN op) = op := by
  apply BitVec.eq_of_toNat_eq
  rw [toNat_encNNN, toNat_fieldNNN, ← hb, bandOf_eq]
  omega

/-- A word is its band, x and trailing byte. -/
theorem encXKK_fields (hb : bandOf op = b.toNat) : encXKK b (fieldX op) (fieldKK op) = op := by
  apply BitVec.eq_of_toNat_eq
  rw [toNat_encXKK, val_fieldX, toNat_fieldKK, ← hb, bandOf_eq]
  omega

/-- A word is its four nibbles. -/
theorem encXYN_fields (hb : bandOf op = b.toNat) :
    encXYN b (fieldX op) (fieldY op) (fieldN op) = op := by
  apply BitVec.eq_of_toNat_eq
  rw [toNat_encXYN, val_fieldX, val_fieldY, val_fieldN, ← hb, bandOf_eq]
  omega

theorem encXKK_of_fieldKK {kk : Byte} (hb : bandOf op = b.toNat)
    (hkk : (fieldKK op).toNat = kk.toNat) : encXKK b (fieldX op) kk = op := by
  rw [← BitVec.eq_of_toNat_eq hkk, encXKK_fields hb]

theorem encXYN_of_fieldN {n : Nibble} (hb : bandOf op = b.toNat) (hn : (fieldN op).val = n.val) :
    encXYN b (fieldX op) (fieldY op) n = op := by
  rw [← Fin.ext hn, encXYN_fields hb]

end fields

/-- The answer is an instruction of that word, well formed, or Invalid with that word. -/
def Decoded.IsOf (d : Decoded) (op : Word) : Prop :=
  match d with
  | .instr i => encode i = op ∧ i.wf = true
  | .invalid bad => bad = op

/-- In band 0 the low twelve bits of a word that is not CLS's are not CLS's either; RET alike. -/
theorem fieldNNN_ne_of_ne {op : Word} {nnn : Addr12} (hb : bandOf op = 0) (h : op ≠ encNNN 0 nnn) :
    fieldNNN op ≠ nnn := by
  rintro rfl
  exact h (encNNN_fieldNNN (b := 0) hb).symm

theorem decodeBand0_isOf {op : Word} (hb : bandOf op = 0) : (decodeBand0 op).IsOf op := by
  unfold decodeBand0
  split_ifs with hcls hret
  · exact ⟨hcls.symm, rfl⟩
  · exact ⟨hret.symm, rfl⟩
  · refine ⟨encNNN_fieldNNN (b := 0) hb, ?_⟩
    have hne : fieldNNN op ≠ 0x0E0 ∧ fieldNNN op ≠ 0x0EE :=
      ⟨fieldNNN_ne_of_ne hb hcls, fieldNNN_ne_of_ne hb hret⟩
    simpa [Instr.wf] using hne

theorem decodeBand8_isOf {op : Word} (hb : bandOf op = 8) : (decodeBand8 op).IsOf op := by
  unfold decodeBand8
  dsimp only
  split
  case h_10 => rfl
  all_goals next hn => exact ⟨encXYN_of_fieldN (b := 8) hb hn, rfl⟩

theorem decodeBandE_isOf {op : Word} (hb : bandOf op = 14) : (decodeBandE op).IsOf op := by
  unfold decodeBandE
  split
  case h_3 => rfl
  all_goals next hkk => exact ⟨encXKK_of_fieldKK (b := 14) hb hkk, rfl⟩

theorem decodeBandF_isOf {op : Word} (hb : bandOf op = 15) : (decodeBandF op).IsOf op := by
  unfold decodeBandF
  dsimp only
  split
  case h_10 => rfl
  all_goals next hkk => exact ⟨encXKK_of_fieldKK (b := 15) hb hkk, rfl⟩

/-- All the decoder can answer, band by band. -/
theorem decode_isOf (op : Word) : (decode op).IsOf op := by
  unfold decode
  split
  · next hb => exact decodeBand0_isOf hb
  · next hb => exact ⟨encNNN_fieldNNN (b := 1) hb, rfl⟩
  · next hb => exact ⟨encNNN_fieldNNN (b := 2) hb, rfl⟩
  · next hb => exact ⟨encXKK_fields (b := 3) hb, rfl⟩
  · next hb => exact ⟨encXKK_fields (b := 4) hb, rfl⟩
  · next hb => exact ⟨encXYN_fields (b := 5) hb, rfl⟩
  · next hb => exact ⟨encXKK_fields (b := 6) hb, rfl⟩
  · next hb => exact ⟨encXKK_fields (b := 7) hb, rfl⟩
  · next hb => exact decodeBand8_isOf hb
  · next hb => exact ⟨encXYN_fields (b := 9) hb, rfl⟩
  · next hb => exact ⟨encNNN_fieldNNN (b := 10) hb, rfl⟩
  · next hb => exact ⟨encNNN_fieldNNN (b := 11) hb, rfl⟩
  · next hb => exact ⟨encXKK_fields (b := 12) hb, rfl⟩
  · next hb => exact ⟨encXYN_fields (b := 13) hb, rfl⟩
  · next hb => exact decodeBandE_isOf hb
  · next hb => exact decodeBandF_isOf hb
  · rfl

theorem encode_of_decode {op : Word} {i : Instr} (h : decode op = .instr i) :
    encode i = op ∧ i.wf = true := by
  simpa [h, Decoded.IsOf] using decode_isOf op

theorem eq_of_decode_invalid {op bad : Word} (h : decode op = .invalid bad) : bad = op := by
  simpa [h, Decoded.IsOf] using decode_isOf op

/-- Settles O2, by what the decoder can answer in each band. -/
theorem encodeOfDecodeIsTheWord : Obligations.EncodeOfDecodeIsTheWord :=
  ⟨fun _ _ => encode_of_decode, fun _ _ => eq_of_decode_invalid⟩

/-! ### The opcode map -/

theorem decodeBand8_of_notMem {op : Word}
    (hn : fieldN op ∉ [0x0, 0x1, 0x2, 0x3, 0x4, 0x5, 0x6, 0x7, 0xE]) :
    decodeBand8 op = .invalid op := by
  unfold decodeBand8
  dsimp only
  split
  case h_10 => rfl
  all_goals next h => simp [Fin.ext_iff, h] at hn

theorem decodeBandE_of_notMem {op : Word} (hkk : fieldKK op ∉ [0x9E, 0xA1]) :
    decodeBandE op = .invalid op := by
  unfold decodeBandE
  split
  case h_3 => rfl
  all_goals next h => simp [← BitVec.toNat_inj, h] at hkk

theorem decodeBandF_of_notMem {op : Word}
    (hkk : fieldKK op ∉ [0x07, 0x0A, 0x15, 0x18, 0x1E, 0x29, 0x33, 0x55, 0x65]) :
    decodeBandF op = .invalid op := by
  unfold decodeBandF
  dsimp only
  split
  case h_10 => rfl
  all_goals next h => simp [← BitVec.toNat_inj, h] at hkk

theorem decode_of_bandOf_eq_eight {op : Word} (h : bandOf op = 8) : decode op = decodeBand8 op := by
  simp only [decode, h]

theorem decode_of_bandOf_eq_fourteen {op : Word} (h : bandOf op = 14) :
    decode op = decodeBandE op := by
  simp only [decode, h]

theorem decode_of_bandOf_eq_fifteen {op : Word} (h : bandOf op = 15) :
    decode op = decodeBandF op := by
  simp only [decode, h]

theorem decode_wordXYN_eight_of_notMem {x y : Reg} {n : Nibble}
    (hn : n ∉ [0x0, 0x1, 0x2, 0x3, 0x4, 0x5, 0x6, 0x7, 0xE]) :
    decode (wordXYN 0x8 x y n) = .invalid (wordXYN 0x8 x y n) := by
  have hword : wordXYN 0x8 x y n = encXYN 8 x y n := wordXYN_eq_encXYN 8 x y n
  have hband : bandOf (encXYN 8 x y n) = 8 := bandOf_encXYN 8 x y n
  rw [hword, decode_of_bandOf_eq_eight hband, decodeBand8_of_notMem (by rwa [fieldN_encXYN])]

theorem decode_wordXKK_fourteen_of_notMem {x : Reg} {kk : Byte} (hkk : kk ∉ [0x9E, 0xA1]) :
    decode (wordXKK 0xE x kk) = .invalid (wordXKK 0xE x kk) := by
  have hword : wordXKK 0xE x kk = encXKK 14 x kk := wordXKK_eq_encXKK 14 x kk
  have hband : bandOf (encXKK 14 x kk) = 14 := bandOf_encXKK 14 x kk
  rw [hword, decode_of_bandOf_eq_fourteen hband, decodeBandE_of_notMem (by rwa [fieldKK_encXKK])]

theorem decode_wordXKK_fifteen_of_notMem {x : Reg} {kk : Byte}
    (hkk : kk ∉ [0x07, 0x0A, 0x15, 0x18, 0x1E, 0x29, 0x33, 0x55, 0x65]) :
    decode (wordXKK 0xF x kk) = .invalid (wordXKK 0xF x kk) := by
  have hword : wordXKK 0xF x kk = encXKK 15 x kk := wordXKK_eq_encXKK 15 x kk
  have hband : bandOf (encXKK 15 x kk) = 15 := bandOf_encXKK 15 x kk
  rw [hword, decode_of_bandOf_eq_fifteen hband, decodeBandF_of_notMem (by rwa [fieldKK_encXKK])]

/-! The nibble spelling of a word is the encoder's layout, so an instruction's word, so spelled, is its
encoding. -/

theorem decode_wordNNN (b : BitVec 4) {nnn : Addr12} {i : Instr} (he : encode i = encNNN b nnn)
    (hi : i.wf = true) : decode (wordNNN b.toNat nnn) = .instr i := by
  rw [wordNNN_eq_encNNN, ← he, decode_encode hi]

theorem decode_wordXKK (b : BitVec 4) {x : Reg} {kk : Byte} {i : Instr}
    (he : encode i = encXKK b x kk) (hi : i.wf = true) :
    decode (wordXKK b.toNat x kk) = .instr i := by
  rw [wordXKK_eq_encXKK, ← he, decode_encode hi]

theorem decode_wordXYN (b : BitVec 4) {x y : Reg} {n : Nibble} {i : Instr}
    (he : encode i = encXYN b x y n) (hi : i.wf = true) :
    decode (wordXYN b.toNat x y n) = .instr i := by
  rw [wordXYN_eq_encXYN, ← he, decode_encode hi]

/-- Settles O4: a word that the map assigns is an encoding, and every other word of bands 8, E and F
meets no arm of its band. -/
theorem decoderFollowsTheOpcodeMap : Obligations.DecoderFollowsTheOpcodeMap := by
  refine ⟨fun nnn => ?_, fun x kk => ?_, fun x y n => ?_, fun x y => ?_, fun x => ?_, fun x => ?_⟩
  · exact ⟨decode_wordNNN 1 rfl rfl, decode_wordNNN 2 rfl rfl, decode_wordNNN 10 rfl rfl,
      decode_wordNNN 11 rfl rfl⟩
  · exact ⟨decode_wordXKK 3 rfl rfl, decode_wordXKK 4 rfl rfl, decode_wordXKK 6 rfl rfl,
      decode_wordXKK 7 rfl rfl, decode_wordXKK 12 rfl rfl⟩
  · exact ⟨decode_wordXYN 5 rfl rfl, decode_wordXYN 9 rfl rfl, decode_wordXYN 13 rfl rfl⟩
  · exact ⟨decode_wordXYN 8 rfl rfl, decode_wordXYN 8 rfl rfl, decode_wordXYN 8 rfl rfl,
      decode_wordXYN 8 rfl rfl, decode_wordXYN 8 rfl rfl, decode_wordXYN 8 rfl rfl,
      decode_wordXYN 8 rfl rfl, decode_wordXYN 8 rfl rfl, decode_wordXYN 8 rfl rfl,
      fun _ => decode_wordXYN_eight_of_notMem⟩
  · exact ⟨decode_wordXKK 14 rfl rfl, decode_wordXKK 14 rfl rfl,
      fun _ => decode_wordXKK_fourteen_of_notMem⟩
  · exact ⟨decode_wordXKK 15 rfl rfl, decode_wordXKK 15 rfl rfl, decode_wordXKK 15 rfl rfl,
      decode_wordXKK 15 rfl rfl, decode_wordXKK 15 rfl rfl, decode_wordXKK 15 rfl rfl,
      decode_wordXKK 15 rfl rfl, decode_wordXKK 15 rfl rfl, decode_wordXKK 15 rfl rfl,
      fun _ => decode_wordXKK_fifteen_of_notMem⟩

/-- Settles O5: the decoder, run on each of the words. -/
theorem writtenOutWordsDecode : Obligations.WrittenOutWordsDecode := by
  unfold Obligations.WrittenOutWordsDecode
  decide

/-! ### Where the Invalid words are -/

theorem bandOf_lt (op : Word) : bandOf op < 16 :=
  (op.extractLsb' 12 4).isLt

/-- Only bands 8, E and F have Invalid words (R61 to R63). -/
theorem bandOf_of_decode_invalid {op bad : Word} (h : decode op = .invalid bad) :
    bandOf op ∈ [0x8, 0xE, 0xF] := by
  unfold decode at h
  split at h
  case h_1 => unfold decodeBand0 at h; split_ifs at h
  case h_9 hb => simp [hb]
  case h_15 hb => simp [hb]
  case h_16 hb => simp [hb]
  case h_17 =>
    grind [bandOf_lt op]
  all_goals cases h

end Sys2Proof
end

section
/-! The assembler form of an instruction (30_encoding.md R66, R67) can be read back, which is why one
form is one instruction. -/

namespace Sys2Proof

/-- The instruction with the low nibble that bands 5 and 9 ignore set to 0 (R64). -/
def Instr.dropIgnored (i : Instr) : Instr :=
  match i with
  | .seReg x y _ => .seReg x y 0
  | .sneReg x y _ => .sneReg x y 0
  | _ => i

/-- The instruction an assembler form stands for, with 0 for an ignored nibble; CLS for what is no
form. -/
def Descriptor.instr (d : Descriptor) : Instr :=
  match d.mnemonic, d.operands, d.literal with
  | "RET", [], none => .ret
  | "SYS", [], some (.address nnn) => .sys nnn
  | "JP", [], some (.address nnn) => .jp nnn
  | "CALL", [], some (.address nnn) => .call nnn
  | "SE", [.reg x], some (.byte kk) => .seImm x kk
  | "SNE", [.reg x], some (.byte kk) => .sneImm x kk
  | "SE", [.reg x, .reg y], none => .seReg x y 0
  | "LD", [.reg x], some (.byte kk) => .ldImm x kk
  | "ADD", [.reg x], some (.byte kk) => .addImm x kk
  | "LD", [.reg x, .reg y], none => .ldReg x y
  | "OR", [.reg x, .reg y], none => .orReg x y
  | "AND", [.reg x, .reg y], none => .andReg x y
  | "XOR", [.reg x, .reg y], none => .xorReg x y
  | "ADD", [.reg x, .reg y], none => .addReg x y
  | "SUB", [.reg x, .reg y], none => .subReg x y
  | "SHR", [.reg x, .reg y], none => .shr x y
  | "SUBN", [.reg x, .reg y], none => .subnReg x y
  | "SHL", [.reg x, .reg y], none => .shl x y
  | "SNE", [.reg x, .reg y], none => .sneReg x y 0
  | "LD", [.pseudo .i], some (.address nnn) => .ldI nnn
  | "JP", [.reg _], some (.address nnn) => .jpV0 nnn
  | "RND", [.reg x], some (.byte kk) => .rnd x kk
  | "DRW", [.reg x, .reg y], some (.height n) => .drw x y n
  | "SKP", [.reg x], none => .skp x
  | "SKNP", [.reg x], none => .sknp x
  | "LD", [.reg x, .pseudo .dt], none => .ldVxDt x
  | "LD", [.reg x, .pseudo .key], none => .ldVxKey x
  | "LD", [.pseudo .dt, .reg x], none => .ldDtVx x
  | "LD", [.pseudo .st, .reg x], none => .ldStVx x
  | "ADD", [.pseudo .i, .reg x], none => .addI x
  | "LD", [.pseudo .font, .reg x], none => .ldFont x
  | "LD", [.pseudo .bcd, .reg x], none => .ldBcd x
  | "LD", [.pseudo .indirect, .reg x], none => .storeRegs x
  | "LD", [.reg x, .pseudo .indirect], none => .loadRegs x
  | _, _, _ => .cls

/-- An assembler form is read back, but for the nibble it has no place for. -/
theorem instr_descriptor (i : Instr) : i.descriptor.instr = i.dropIgnored := by
  cases i <;> rfl

/-- Only the two register comparisons lose a nibble, and neither can be taken for the other. -/
theorem eq_or_of_dropIgnored_eq {i j : Instr} (h : i.dropIgnored = j.dropIgnored) :
    i = j ∨ ∃ x y n m,
      (i = .seReg x y n ∧ j = .seReg x y m) ∨ (i = .sneReg x y n ∧ j = .sneReg x y m) := by
  unfold Instr.dropIgnored at h
  split at h <;> split at h <;> grind

/-- Settles O6: a form determines its instruction up to the ignored nibble, because it can be read
back. -/
theorem descriptorDeterminesTheInstruction : Obligations.DescriptorDeterminesTheInstruction := by
  refine ⟨fun i => ?_, fun i j h => ?_⟩
  · cases i <;> simp [Instr.descriptor]
  · have hdrop : i.dropIgnored = j.dropIgnored := by
      rw [← instr_descriptor, ← instr_descriptor, h]
    exact eq_or_of_dropIgnored_eq hdrop

end Sys2Proof
end

section
/-! The frame of each operation on the state: the parts it can change. -/

namespace Sys2Proof.Machine

/-! ### Frames in general -/

theorem keepsAllBut_refl (s : State) : KeepsAllBut [] s s := fun p _ => Keeps.refl p

theorem KeepsAllBut.trans {l : List Part} {s t u : State} (h : KeepsAllBut l s t)
    (h' : KeepsAllBut l t u) : KeepsAllBut l s u :=
  fun p hp => (h p hp).trans (h' p hp)

theorem KeepsAllBut.mono {l l' : List Part} {s t : State} (h : KeepsAllBut l s t)
    (hl : ∀ p ∈ l, p ∈ l') : KeepsAllBut l' s t :=
  fun p hp => h p fun hpl => hp (hl p hpl)

theorem KeepsAllBut.unless {l : List Part} {changed : Part → Prop} {s t : State}
    (h : KeepsAllBut l s t) (hl : ∀ p ∈ l, changed p) : KeepsUnless changed s t :=
  fun p hp => h p fun hpl => hp (hl p hpl)

theorem KeepsUnless.trans {changed : Part → Prop} {s t u : State} (h : KeepsUnless changed s t)
    (h' : KeepsUnless changed t u) : KeepsUnless changed s u :=
  fun p hp => (h p hp).trans (h' p hp)

theorem KeepsUnless.mono {changed changed' : Part → Prop} {s t : State} (h : KeepsUnless changed s t)
    (hle : ∀ p, changed p → changed' p) : KeepsUnless changed' s t :=
  fun p hp => h p fun hc => hp (hle p hc)

theorem KeepsUnless.refl (changed : Part → Prop) (s : State) : KeepsUnless changed s s :=
  fun p _ => Keeps.refl p

/-! ### Single writes -/

section writes
variable (s : State)

theorem keeps_writePc (w : Word) : KeepsAllBut [.pc] s (s.writePc w) := by
  intro p hp
  cases p with
  | pc => simp at hp
  | _ => rfl

theorem keeps_writeDt (b : Byte) : KeepsAllBut [.dt] s (s.writeDt b) := by
  intro p hp
  cases p with
  | dt => simp at hp
  | _ => rfl

theorem keeps_writeSt (b : Byte) : KeepsAllBut [.st] s (s.writeSt b) := by
  intro p hp
  cases p with
  | st => simp at hp
  | _ => rfl

theorem keeps_writeWait (w : Option Reg) : KeepsAllBut [.wait] s (s.writeWait w) := by
  intro p hp
  cases p with
  | wait => simp at hp
  | _ => rfl

theorem keeps_consumeRandom : KeepsAllBut [.draws] s s.consumeRandom := by
  intro p hp
  cases p with
  | draws => simp at hp
  | _ => rfl

theorem keeps_popPc (w : Word) : KeepsAllBut [.pc, .sp] s (s.popPc w) := by
  intro p hp
  cases p with
  | pc | sp => simp at hp
  | _ => rfl

/-- A push writes the entry SP names and SP; PC follows with the jump. -/
theorem keeps_pushPc :
    KeepsUnless (fun p => p = .sp ∨ ∃ k : Fin 16, p = .slot k ∧ k.val = s.sp.toNat) s s.pushPc := by
  intro p hp
  cases p with
  | sp => simp at hp
  | slot k =>
    have hk : k.val ≠ s.sp.toNat := by simpa using hp
    rw [keeps_slot, pushPc_slot, if_neg hk]
  | _ => rfl

/-- A fault sets FAULT and PC only (60_exceptions.md R218). -/
theorem keeps_takeFault (r : FaultRecord) : KeepsAllBut [.pc, .fault] s (s.takeFault r) := by
  intro p hp
  cases p with
  | pc | fault => simp at hp
  | _ => rfl

theorem keeps_writeResultFlag (x : Reg) (b : Byte) (f : Bool) :
    KeepsAllBut [.reg x, .reg flagReg] s (s.writeResultFlag x b f) := by
  have hresult := (keeps_writeV s x b).mono (l' := [.reg x, .reg flagReg]) (by simp)
  have hflag := (keeps_writeV (s.writeV x b) flagReg (flagByte f)).mono
    (l' := [.reg x, .reg flagReg]) (by simp)
  exact hresult.trans hflag

theorem keeps_skipIf (c : Bool) : KeepsAllBut [.pc] s (s.skipIf c) := by
  rw [skipIf_eq]
  exact keeps_writePc s _

theorem keeps_writeFb (fb : Framebuffer) :
    KeepsUnless (fun p => p = .fbWritten ∨ ∃ r c, p = .pixel r c) s (s.writeFb fb) := by
  intro p hp
  cases p with
  | fbWritten | pixel => simp at hp
  | _ => rfl

/-- Loading registers changes those the run reaches (44_index_memory.md R156). -/
theorem keeps_writeFirstV (bs : List Byte) :
    KeepsUnless (fun p => ∃ r : Reg, r.val < bs.length ∧ p = .reg r) s (s.writeFirstV bs) := by
  intro p hp
  cases p with
  | reg r =>
    have hr : bs.length ≤ r.val := by simpa using hp
    exact readV_writeFirstV_of_length_le s hr
  | _ => rfl

variable {s}

/-- Storing a run of bytes changes the bytes of the run only (20_memory.md R45). -/
theorem keeps_storeBytes {base : Nat} {bs : List Byte}
    (hfits : base + bs.length ≤ Config.memSize) {p : Part}
    (hwf : ∀ a, p = .byte a → Memory.wf s.mem = true)
    (hp : ∀ k < bs.length, p ≠ .byte (base + k)) : Keeps s (s.storeBytes base bs) p := by
  cases p with
  | byte a =>
    rw [keeps_byte, storeBytes_mem, Memory.byteAt_putBytes (hwf a rfl) hfits]
    split
    · next hle =>
      refine List.getD_eq_default _ _ (Nat.not_lt.1 fun hlt => ?_)
      exact hp (a - base) hlt (by rw [Nat.add_sub_cancel' hle])
    · rfl
  | _ => rfl

end writes

end Sys2Proof.Machine
end

section
/-! All an instruction can do, said once: it completes and changes only what R20 lets it write, it
raises one of the faults of 60_exceptions.md, or, in CALL and RET with an SP above 16, it stops. -/

namespace Sys2Proof.Machine

/-! ### Raising a fault -/

/-- The instruction raises a fault of this kind in this state, with this extra field (60_exceptions.md
R213 to R217). -/
inductive RaisesIn (s : State) : Instr → FaultKind → Option Nat → Prop where
  | stackOverflow (nnn : Addr12) (h : s.sp.toNat = Config.stackDepth) :
      RaisesIn s (.call nnn) .stackOverflow none
  | stackUnderflow (h : s.sp.toNat = 0) : RaisesIn s .ret .stackUnderflow none
  | keyIndex {i : Instr} {x : Reg} (hi : i = .skp x ∨ i = .sknp x) (h : 15 < (s.readV x).toNat) :
      RaisesIn s i .keyIndex (some (s.readV x).toNat)
  | memoryBounds {i : Instr} {last : Nat} (hi : lastAccess i s = some last)
      (h : Config.memSize ≤ last) :
      RaisesIn s i .memoryBounds (some (max s.i.toNat Config.memSize))

/-- `t` is `s` with a fault that `i` raises there: the record names `i`'s word and pc0. -/
def Faults (i : Instr) (s t : State) : Prop :=
  ∃ kind extra, RaisesIn s i kind extra ∧
    t = s.takeFault ⟨kind, some (encode i), s.pc - 2, extra⟩

/-- `t` is a state in which `i`, begun in `s`, can complete. What is said of a memory byte rests on
memory being in canonical form. -/
structure Completes (i : Instr) (s t : State) : Prop where
  frame : ∀ p, (∀ a, p = .byte a → Memory.wf s.mem = true) → ¬ MayWrite i s p → Keeps s t p
  mem_wf : Memory.wf s.mem = true → Memory.wf t.mem = true
  sp_le : s.sp.toNat ≤ Config.stackDepth → t.sp.toNat ≤ Config.stackDepth

theorem Completes.fault_eq {i : Instr} {s t : State} (h : Completes i s t) : t.fault = s.fault :=
  h.frame .fault nofun id

/-- Of an instruction that writes neither memory nor SP only its frame has to be said. -/
theorem Completes.of_frame {i : Instr} {s t : State} (h : KeepsUnless (MayWrite i s) s t)
    (hmem : t.mem = s.mem) (hsp : t.sp = s.sp) : Completes i s t :=
  ⟨fun p _ hp => h p hp, fun hwf => hmem ▸ hwf, fun hle => hsp ▸ hle⟩

/-! ### The shared shapes of a meaning -/

theorem toNat_sp_add_one {s : State} (h : s.sp.toNat < 16) :
    (s.sp + 1).toNat = s.sp.toNat + 1 := by
  rw [BitVec.toNat_add_of_lt] <;> simp
  omega

theorem toNat_sp_sub_one {s : State} (h : s.sp.toNat ≠ 0) : (s.sp - 1).toNat = s.sp.toNat - 1 := by
  have hle : (1 : Byte) ≤ s.sp := by simp [BitVec.le_def]; omega
  rw [BitVec.toNat_sub_of_le hle]
  rfl

/-- A checked access completes with `done`, or raises MemoryBounds at the last address it accesses. -/
theorem checkRange_outcome {i : Instr} {len : Nat} {s done t : State}
    (hlast : 0 < len → lastAccess i s = some (s.i.toNat + len - 1))
    (hdone : len = 0 ∨ s.i.toNat + len ≤ Config.memSize → Completes i s done)
    (h : checkRange (encode i) s.i.toNat len s done = .next t) : Completes i s t ∨ Faults i s t := by
  rcases checkRange_cases h with ⟨rfl, hfits⟩ | ⟨rfl, h0, hexceeds⟩
  · exact .inl (hdone hfits)
  · exact .inr ⟨_, _, .memoryBounds (hlast h0) (by omega), rfl⟩

theorem skipOnKey_outcome {i : Instr} {x : Reg} {wanted : Bool} {s t : State}
    (hi : i = .skp x ∨ i = .sknp x) (h : skipOnKey (encode i) x wanted s = .next t) :
    Completes i s t ∨ Faults i s t := by
  unfold skipOnKey at h
  split at h
  · next pressed _ =>
    cases h
    have hpc : MayWrite i s .pc := .inr (.inr (.inr (.inr ⟨x, hi⟩)))
    exact .inl (.of_frame ((keeps_skipIf s _).unless (by simpa using hpc))
      (by simp [skipIf_eq]) (by simp [skipIf_eq]))
  · next hnone =>
    cases h
    have habove : 15 < (s.readV x).toNat := by
      simpa [State.keyLine, Nat.succ_le_iff] using hnone
    exact .inr ⟨_, _, .keyIndex hi habove, rfl⟩

theorem execCall_outcome {nnn : Addr12} {s t : State} (h : execCall nnn s = .next t) :
    Completes (.call nnn) s t ∨ Faults (.call nnn) s t := by
  unfold execCall at h
  split_ifs at h with hfull hfree
  · cases h
    exact .inr ⟨_, _, .stackOverflow nnn hfull, rfl⟩
  · cases h
    have hpush := (keeps_pushPc s).mono (changed' := MayWrite (.call nnn) s) (by
      rintro p (rfl | ⟨k, rfl, hk⟩)
      · exact .inr ⟨nnn, rfl⟩
      · exact ⟨⟨nnn, rfl⟩, hk⟩)
    have hjump := (keeps_writePc s.pushPc (addressOf nnn)).unless
      (changed := MayWrite (.call nnn) s) (by simp [MayWrite])
    refine .inl ⟨fun p _ => (hpush.trans hjump) p, id, fun _ => ?_⟩
    rw [writePc_sp, pushPc_sp, toNat_sp_add_one hfree]
    omega

theorem execRet_outcome {s t : State} (h : execRet s = .next t) :
    Completes .ret s t ∨ Faults .ret s t := by
  unfold execRet at h
  split at h
  · next hempty =>
    cases h
    exact .inr ⟨_, _, .stackUnderflow hempty, rfl⟩
  · next hne =>
    split at h
    · next target _ =>
      cases h
      have hframe := (keeps_popPc s target).unless (changed := MayWrite .ret s) (by simp [MayWrite])
      refine .inl ⟨fun p _ => hframe p, id, fun hle => ?_⟩
      rw [popPc_sp, toNat_sp_sub_one hne]
      omega
    · cases h

theorem execLdVxKey_completes {x : Reg} {s t : State} (h : execLdVxKey x s = .next t) :
    Completes (.ldVxKey x) s t := by
  unfold execLdVxKey at h
  split at h
  · cases h
    exact .of_frame ((keeps_writeV s x _).unless (by simp [MayWrite, hasDestination])) rfl rfl
  · cases h
    exact .of_frame ((keeps_writeWait s _).unless (by simp [MayWrite])) rfl rfl

/-- A store of `bs` at I completes: the bytes from I on, as many as there are, are the instruction's to
write. -/
theorem storeBytes_completes {i : Instr} {s : State} {bs : List Byte}
    (hfits : s.i.toNat + bs.length ≤ Config.memSize)
    (hbytes : ∀ k < bs.length, MayWrite i s (.byte (s.i.toNat + k))) :
    Completes i s (s.storeBytes s.i.toNat bs) where
  frame _ hwf hp := keeps_storeBytes hfits hwf fun k hk e => hp (e ▸ hbytes k hk)
  mem_wf hwf := Memory.wf_putBytes hwf hfits
  sp_le hle := hle

@[simp] theorem length_bcdDigits (b : Byte) : (bcdDigits b).length = 3 := rfl

@[simp] theorem length_firstV (s : State) (x : Reg) : (s.firstV x).length = x.val + 1 := by
  simp [State.firstV]

/-! ### Every instruction -/

/-- All an instruction that answers a next state can do (40_engine_cycle.md R70, 60_exceptions.md
R218). -/
theorem exec_outcome {i : Instr} {s t : State} (h : exec i s = .next t) :
    Completes i s t ∨ Faults i s t := by
  cases i with
  | sys =>
    cases h
    exact .inl (.of_frame (KeepsUnless.refl _ s) rfl rfl)
  | jp | jpV0 =>
    cases h
    exact .inl (.of_frame ((keeps_writePc s _).unless (by simp [MayWrite])) rfl rfl)
  | call => exact execCall_outcome h
  | ret => exact execRet_outcome h
  | seImm | sneImm | seReg | sneReg =>
    cases h
    exact .inl (.of_frame ((keeps_skipIf s _).unless (by simp [MayWrite]))
      (by simp [skipIf_eq]) (by simp [skipIf_eq]))
  | skp => exact skipOnKey_outcome (.inl rfl) h
  | sknp => exact skipOnKey_outcome (.inr rfl) h
  | ldImm | addImm | ldReg | orReg | andReg | xorReg | ldVxDt =>
    cases h
    exact .inl (.of_frame ((keeps_writeV s _ _).unless (by simp [MayWrite, hasDestination])) rfl rfl)
  | rnd x kk =>
    cases h
    have hdraw := (keeps_consumeRandom s).unless (changed := MayWrite (.rnd x kk) s)
      (by simp [MayWrite])
    have hwrite := (keeps_writeV s.consumeRandom x (s.randomByte &&& kk)).unless
      (changed := MayWrite (.rnd x kk) s) (by simp [MayWrite, hasDestination])
    exact .inl (.of_frame (hdraw.trans hwrite) rfl rfl)
  | addReg | subReg | shr | subnReg | shl =>
    cases h
    exact .inl (.of_frame ((keeps_writeResultFlag s _ _ _).unless
      (by simp [MayWrite, hasDestination, definesFlag])) rfl rfl)
  | ldVxKey => exact .inl (execLdVxKey_completes h)
  | ldDtVx =>
    cases h
    exact .inl (.of_frame ((keeps_writeDt s _).unless (by simp [MayWrite])) rfl rfl)
  | ldStVx =>
    cases h
    exact .inl (.of_frame ((keeps_writeSt s _).unless (by simp [MayWrite])) rfl rfl)
  | ldI | addI | ldFont =>
    cases h
    exact .inl (.of_frame ((keeps_writeI s _).unless (by simp [MayWrite])) rfl rfl)
  | cls =>
    cases h
    have hfb := (keeps_writeFb s Framebuffer.blank).mono (changed' := MayWrite .cls s)
      (by rintro p (rfl | ⟨r, c, rfl⟩) <;> simp [MayWrite])
    exact .inl (.of_frame hfb rfl rfl)
  | drw x y n =>
    refine checkRange_outcome (fun h0 => by simp [lastAccess, Nat.ne_of_gt h0]) (fun _ => ?_) h
    have hfb := (keeps_writeFb s (s.drawn x y n).fb).mono (changed' := MayWrite (.drw x y n) s)
      (by rintro p (rfl | ⟨r, c, rfl⟩) <;> simp [MayWrite])
    have hflag := (keeps_writeV (s.writeFb (s.drawn x y n).fb) flagReg
      (flagByte (s.drawn x y n).hit)).unless (changed := MayWrite (.drw x y n) s)
      (by simp [MayWrite, definesFlag])
    exact .of_frame (hfb.trans hflag) rfl rfl
  | ldBcd x =>
    refine checkRange_outcome (fun _ => rfl) (fun hfits => ?_) h
    exact storeBytes_completes (by simpa using hfits) (by simp [MayWrite]; omega)
  | storeRegs x =>
    refine checkRange_outcome (fun _ => rfl) (fun hfits => ?_) h
    exact storeBytes_completes (by simpa using hfits) (by simp [MayWrite])
  | loadRegs x =>
    refine checkRange_outcome (fun _ => rfl) (fun _ => ?_) h
    refine .of_frame ((keeps_writeFirstV s _).mono ?_) rfl rfl
    rintro p ⟨r, hr, rfl⟩
    have hle : r ≤ x := by simpa [Nat.lt_succ_iff] using hr
    exact .inl hle

/-- Settles O50: an instruction that left FAULT clear did not fault, so it completed. -/
theorem onlyListedInstructionsWriteEachPart : Obligations.OnlyListedInstructionsWriteEachPart := by
  intro i s t hwf _ h ht p hp
  rcases exec_outcome h with hc | ⟨kind, extra, _, rfl⟩
  · exact hc.frame p (fun _ _ => hwf) hp
  · cases ht

end Sys2Proof.Machine
end

section
/-! An instruction answers a next state from every SP the spec allows, and no instruction is refused
(40_engine_cycle.md R73, R74). Only CALL and RET stop, and only with an SP above 16 (log 3). -/

namespace Sys2Proof.Machine

/-- The instruction answers a next state, or it stops because SP is above 16. -/
def Answers (i : Instr) (s : State) : Prop :=
  (∃ t, exec i s = .next t) ∨
  (Config.stackDepth < s.sp.toNat ∧ exec i s = .fault .illegalStackPointer)

theorem checkRange_answers (op : Word) (base len : Nat) (s done : State) :
    ∃ t, checkRange op base len s done = .next t := by
  unfold checkRange
  split <;> exact ⟨_, rfl⟩

theorem skipOnKey_answers (op : Word) (x : Reg) (wanted : Bool) (s : State) :
    ∃ t, skipOnKey op x wanted s = .next t := by
  unfold skipOnKey
  split <;> exact ⟨_, rfl⟩

theorem execLdVxKey_answers (x : Reg) (s : State) : ∃ t, execLdVxKey x s = .next t := by
  unfold execLdVxKey
  split <;> exact ⟨_, rfl⟩

theorem exec_call_of_sp_gt {s : State} (h : 16 < s.sp.toNat) (nnn : Addr12) :
    exec (.call nnn) s = .fault .illegalStackPointer := by
  have hfull : s.sp.toNat ≠ Config.stackDepth := Nat.ne_of_gt h
  have hfree : ¬ s.sp.toNat < Config.stackDepth := Nat.not_lt.2 h.le
  exact (if_neg hfull).trans (if_neg hfree)

theorem exec_call_of_sp_le {s : State} (h : s.sp.toNat ≤ 16) (nnn : Addr12) :
    ∃ t, exec (.call nnn) s = .next t := by
  rcases Nat.eq_or_lt_of_le h with hfull | hfree
  · exact ⟨_, if_pos hfull⟩
  · exact ⟨_, (if_neg hfree.ne).trans (if_pos hfree)⟩

theorem returnAddress_of_sp_gt {s : State} (h : 16 < s.sp.toNat) : s.returnAddress = none := by
  rw [State.returnAddress, toNat_sp_sub_one (by omega), Vector.getElem?_eq_none (by omega)]

theorem returnAddress_of_sp_le {s : State} (h0 : s.sp.toNat ≠ 0) (h : s.sp.toNat - 1 < 16) :
    s.returnAddress = some s.stack[s.sp.toNat - 1] := by
  rw [State.returnAddress, toNat_sp_sub_one h0, Vector.getElem?_eq_getElem h]

theorem exec_ret_of_sp_gt {s : State} (h : 16 < s.sp.toNat) :
    exec .ret s = .fault .illegalStackPointer := by
  have h0 : s.sp.toNat ≠ 0 := by omega
  simp [exec, execRet, h0, returnAddress_of_sp_gt h]

theorem exec_ret_of_sp_pos {s : State} (h0 : s.sp.toNat ≠ 0) (h : s.sp.toNat - 1 < 16) :
    exec .ret s = .next (s.popPc s.stack[s.sp.toNat - 1]) := by
  simp [exec, execRet, h0, returnAddress_of_sp_le h0 h]

theorem exec_ret_of_sp_zero {s : State} (h0 : s.sp.toNat = 0) :
    exec .ret s = raise .stackUnderflow (encode .ret) none s := if_pos h0

/-- Settles O22, by the last branch of CALL and of RET. -/
theorem illegalStackPointerStopsCallAndRet : Obligations.IllegalStackPointerStopsCallAndRet :=
  fun nnn _ h => ⟨exec_call_of_sp_gt h nnn, exec_ret_of_sp_gt h⟩

theorem call_answers (nnn : Addr12) (s : State) : Answers (.call nnn) s := by
  rcases Nat.lt_or_ge 16 s.sp.toNat with h | h
  · exact .inr ⟨h, exec_call_of_sp_gt h nnn⟩
  · exact .inl (exec_call_of_sp_le h nnn)

theorem ret_answers (s : State) : Answers .ret s := by
  rcases Nat.lt_or_ge 16 s.sp.toNat with h | h
  · exact .inr ⟨h, exec_ret_of_sp_gt h⟩
  · by_cases h0 : s.sp.toNat = 0
    · exact .inl ⟨_, exec_ret_of_sp_zero h0⟩
    · exact .inl ⟨_, exec_ret_of_sp_pos h0 (by omega)⟩

theorem exec_answers (i : Instr) (s : State) : Answers i s := by
  cases i with
  | call nnn => exact call_answers nnn s
  | ret => exact ret_answers s
  | drw | ldBcd | storeRegs | loadRegs => exact .inl (checkRange_answers ..)
  | skp | sknp => exact .inl (skipOnKey_answers ..)
  | ldVxKey x => exact .inl (execLdVxKey_answers x s)
  | _ => exact .inl ⟨_, rfl⟩

theorem exec_ne_refused (i : Instr) (s : State) (r : Refusal) : exec i s ≠ .refused r := by
  rcases exec_answers i s with ⟨t, h⟩ | ⟨-, h⟩ <;> rw [h] <;> nofun

theorem exec_next_of_sp_le {s : State} (h : s.sp.toNat ≤ Config.stackDepth) (i : Instr) :
    ∃ t, exec i s = .next t := by
  rcases exec_answers i s with hnext | ⟨hgt, -⟩
  · exact hnext
  · exact absurd h (Nat.not_le.2 hgt)

end Sys2Proof.Machine
end

section
/-! One tick (40_engine_cycle.md R68 to R73): fetch, the decoded instruction, the countdown, the
waiting tick, and what a faulting tick leaves behind. -/

namespace Sys2Proof.Machine

/-! ### Fetch (R68) -/

theorem fetch_of_lt {s : State} (h : s.pc.toNat + 1 < 4096) : s.fetch = some
    (opcodeOfBytes (Memory.byteAt s.mem s.pc.toNat) (Memory.byteAt s.mem (s.pc.toNat + 1))) :=
  if_pos h

theorem fetch_eq_none_iff {s : State} : s.fetch = none ↔ 4096 ≤ s.pc.toNat + 1 := by
  by_cases h : s.pc.toNat + 1 < 4096
  · simp [fetch_of_lt h]
    omega
  · have hnone : s.fetch = none := if_neg h
    simp [hnone]
    omega

/-- A tick's step 3 begins in this state (R69, R73; logs 6 and 7). -/
theorem beginTick_advance_eq (s : State) : s.beginTick.advance =
    { s with pc := s.pc + 2, fbWritten := false, keys := s.keyInput.headD s.keys,
             keyInput := s.keyInput.tail } := by
  unfold State.beginTick State.sampleKeys
  split <;> rename_i h <;> simp [State.advance, State.writePc, h]

/-- The parts steps 1 and 2 change. -/
theorem keeps_beginTick_advance (s : State) :
    KeepsUnless (fun p => p = .pc ∨ HostSide p) s s.beginTick.advance := by
  have hbegin := (keeps_beginTick s).mono (changed' := fun p => p = .pc ∨ HostSide p)
    fun _ => .inr
  exact hbegin.trans ((keeps_advance s.beginTick).unless (by simp))

theorem step_executeWord_of_lt {s : State} (hf : s.fault = none) (hw : s.wait = none)
    (h : s.pc.toNat + 1 < 4096) : step s = executeWord
      (opcodeOfBytes (Memory.byteAt s.mem s.pc.toNat) (Memory.byteAt s.mem (s.pc.toNat + 1)))
      s.beginTick :=
  step_of_fetch hf hw (fetch_of_lt h)

/-- A fault taken before step 3 wrote anything, with pc0 in its record, changes FAULT alone. -/
theorem keeps_takeFault_of_pc0 {s s' : State} {r : FaultRecord}
    (h : KeepsUnless (fun p => p = .pc ∨ HostSide p) s s') (hpc : r.pc0 = s.pc) :
    KeepsUnless (fun p => p = .fault ∨ HostSide p) s (s'.takeFault r) := by
  intro p hp
  obtain ⟨hfault, hhost⟩ := not_or.1 hp
  by_cases hppc : p = .pc
  · subst hppc
    exact hpc
  · have htake := keeps_takeFault s' r p (by simp [hppc, hfault])
    exact (h p (by simp [hppc, hhost])).trans htake

theorem keeps_beginTick_takeFault {s : State} {r : FaultRecord} (hpc : r.pc0 = s.pc) :
    KeepsUnless (fun p => p = .fault ∨ HostSide p) s (s.beginTick.takeFault r) :=
  keeps_takeFault_of_pc0 ((keeps_beginTick s).mono fun _ => .inr) hpc

theorem keeps_advance_takeFault {s : State} {r : FaultRecord} (hpc : r.pc0 = s.pc) :
    KeepsUnless (fun p => p = .fault ∨ HostSide p) s (s.beginTick.advance.takeFault r) :=
  keeps_takeFault_of_pc0 (keeps_beginTick_advance s) hpc

/-- Settles O8, by the two answers of the fetch. -/
theorem fetchIsBigEndianOrRaisesFetchBounds : Obligations.FetchIsBigEndianOrRaisesFetchBounds := by
  intro s hf hw
  constructor
  · intro hlt
    exact ⟨_, toNat_opcodeOfBytes _ _, step_executeWord_of_lt hf hw hlt⟩
  · intro hge
    exact ⟨_, step_of_fetch_none hf hw (fetch_eq_none_iff.2 hge), rfl,
      keeps_beginTick_takeFault rfl⟩

/-! ### The decoded instruction (R70) -/

theorem step_of_raises {s u : State} {op : Word} {i : Instr} (hf : s.fault = none)
    (hw : s.wait = none) (ho : s.fetch = some op) (hd : decode op = .instr i)
    (he : exec i s.beginTick.advance = .next u) (hu : u.fault ≠ none) : step s = .next u := by
  rw [step_of_instr hf hw ho hd, he]
  simp [finishTick, Option.isSome_iff_ne_none.2 hu]

/-- Settles O7: the step is `finishTick` of the instruction's answer, case by case. -/
theorem tickRunsTheDecodedInstruction : Obligations.TickRunsTheDecodedInstruction := by
  intro s i hf hw hlt hd
  have ho := fetch_of_lt hlt
  rw [← beginTick_advance_eq s]
  refine ⟨fun t he ht => ?_, fun t he ht => ?_, fun f he => ?_, exec_ne_refused i _⟩
  · exact step_of_completes hf hw ho hd he ht
  · exact step_of_raises hf hw ho hd he ht
  · rw [step_of_instr hf hw ho hd, he, finishTick]

theorem step_of_invalid {s : State} {op : Word} (hf : s.fault = none) (hw : s.wait = none)
    (ho : s.fetch = some op) (hd : decode op = .invalid op) :
    step s = .next (s.beginTick.advance.takeFault ⟨.decodeFailure, some op, s.pc, none⟩) := by
  simp [step_of_fetch hf hw ho, executeWord, hd, raiseDecodeFailure, raise]

/-- Settles O9, by the decoder's Invalid answer and the bands that have one. -/
theorem invalidWordRaisesDecodeFailure : Obligations.InvalidWordRaisesDecodeFailure := by
  constructor
  · rintro s op hf hw hlt rfl hd
    exact ⟨_, step_of_invalid hf hw (fetch_of_lt hlt) hd, rfl, keeps_advance_takeFault rfl⟩
  · intro op hd
    rw [← bandOf_eq]
    exact bandOf_of_decode_invalid hd

/-! ### What a waiting tick leaves alone (45_timers_keys.md R175) -/

section waiting
variable (s : State) (x : Reg)

@[simp] theorem waitingTick_sp : (s.waitingTick x).sp = s.sp := by
  unfold State.waitingTick State.consumeKey
  split <;> rfl

@[simp] theorem waitingTick_mem : (s.waitingTick x).mem = s.mem := by
  unfold State.waitingTick State.consumeKey
  split <;> rfl

@[simp] theorem waitingTick_fault : (s.waitingTick x).fault = s.fault := by
  unfold State.waitingTick State.consumeKey
  split <;> rfl

@[simp] theorem waitingTick_keys : (s.waitingTick x).keys = s.keys := by
  unfold State.waitingTick State.consumeKey
  split <;> rfl

end waiting

/-! ### Faulting ticks (60_exceptions.md R218) -/

/-- The answers of a step from a state without a fault: it ends without one, or all it did was to take
one at pc0. -/
theorem step_fault_cases {s t : State} (hf : s.fault = none) (h : step s = .next t) :
    t.fault = none ∨ ∃ s' r, (s' = s.beginTick ∨ s' = s.beginTick.advance) ∧ r.pc0 = s.pc ∧
      t = s'.takeFault r := by
  rcases step_cases h with ⟨hsome, -⟩ | ⟨-, x, -, rfl⟩ | ⟨-, -, -, rfl⟩ |
    ⟨-, -, op, bad, -, -, rfl⟩ | ⟨-, -, op, i, u, -, -, he, rfl⟩
  · simp [hf] at hsome
  · left
    simpa using hf
  · exact .inr ⟨_, _, .inl rfl, rfl, rfl⟩
  · exact .inr ⟨_, _, .inr rfl, rfl, rfl⟩
  · rcases exec_outcome he with hc | ⟨kind, extra, -, rfl⟩
    · have hu : u.fault = none := by simpa [hf] using hc.fault_eq
      simp [hu]
    · refine .inr ⟨s.beginTick.advance, _, .inr rfl, ?_, if_pos rfl⟩
      simp

/-- Settles O14: a tick that faults changed nothing before it took the fault. -/
theorem faultingTickChangesOnlyFault : Obligations.FaultingTickChangesOnlyFault := by
  intro s t hf h ht
  rcases step_fault_cases hf h with hnone | ⟨s', r, hs', hpc, rfl⟩
  · exact absurd hnone ht
  · refine ⟨?_, ?_, step_of_faulted ht⟩ <;> rcases hs' with rfl | rfl
    · exact keeps_beginTick_takeFault hpc
    · exact keeps_advance_takeFault hpc
    · simp
    · simp

/-! ### Any number of ticks -/

theorem run_succ {s t : State} (h : step s = .next t) (n : Nat) :
    core.run (n + 1) s = core.run n t := by
  have hcore : core.step s = .next t := h
  simp only [Host.Core.run, hcore]

/-- Settles O15, by induction on the number of ticks: each answers the state it began in. -/
theorem faultIsTerminal : Obligations.FaultIsTerminal := by
  intro s n hf
  induction n with
  | zero => rfl
  | succ n ih => rw [run_succ (step_of_faulted hf), ih]

/-! ### The waiting tick (45_timers_keys.md R175) -/

theorem consumeKey_of_some {s : State} {k : Reg} (x : Reg) (h : leastPressed s.keys = some k) :
    s.consumeKey x = (s.writeV x (keyValue k)).writeWait none := by
  simp [State.consumeKey, h]

theorem consumeKey_of_none {s : State} (x : Reg) (h : leastPressed s.keys = none) :
    s.consumeKey x = s := by
  simp [State.consumeKey, h]

theorem keeps_consumeKey (s : State) (x : Reg) :
    KeepsAllBut [.reg x, .wait] s (s.consumeKey x) := by
  unfold State.consumeKey
  split
  · next k _ =>
    have hreg := (keeps_writeV s x (keyValue k)).mono (l' := [.reg x, .wait]) (by simp)
    exact hreg.trans ((keeps_writeWait _ none).mono (by simp))
  · exact (keepsAllBut_refl s).mono (by simp)

/-- The key that is pressed while no smaller one is is the least one (R174). -/
theorem leastPressed_of_least {keys : Keypad} {k : Reg} (hk : keys[k] = true)
    (hlt : ∀ j < k, keys[j] = false) : leastPressed keys = some k := by
  cases h : leastPressed keys with
  | none => simp [leastPressed_eq_none.1 h k] at hk
  | some j =>
    obtain ⟨hj, hmin⟩ := leastPressed_eq_some h
    rcases lt_trichotomy j k with hjk | rfl | hkj
    · simp [hlt j hjk] at hj
    · rfl
    · simp [hmin k hkj] at hk

/-- A waiting tick counts the timers down whatever the keys do (R175, C7). -/
theorem toNat_timers_waitingTick (s : State) (x : Reg) :
    (s.waitingTick x).dt.toNat = s.dt.toNat - 1 ∧ (s.waitingTick x).st.toNat = s.st.toNat - 1 := by
  have hdt : (s.consumeKey x).dt = s.dt := keeps_consumeKey s x .dt (by simp)
  have hst : (s.consumeKey x).st = s.st := keeps_consumeKey s x .st (by simp)
  simp [State.waitingTick, toNat_countDown, hdt, hst]

/-- Settles O11, by whether the sampled keypad has a least pressed key. -/
theorem waitingTickConsumesTheLeastPressedKey : Obligations.WaitingTickConsumesTheLeastPressedKey := by
  intro s x hf hw
  obtain ⟨hdt, hst⟩ := toNat_timers_waitingTick s.beginTick x
  refine ⟨_, step_of_waiting hf hw, by simp, by simpa using hdt, by simpa using hst, ?_, ?_⟩
  · intro k hk hlt
    have hleast := leastPressed_of_least hk hlt
    rw [waitingTick_keys] at hleast
    have hkey := consumeKey_of_some x hleast
    refine ⟨by simp [State.waitingTick, hkey], by simp [State.waitingTick, hkey], ?_⟩
    have hbegin := (keeps_beginTick s).mono
      (changed' := fun p => p ∈ [.reg x, .wait, .dt, .st] ∨ HostSide p) fun _ => .inr
    have hconsume := (keeps_consumeKey s.beginTick x).unless
      (changed := fun p => p ∈ [.reg x, .wait, .dt, .st] ∨ HostSide p) (by simp)
    have hcount := (keeps_countTimers (s.beginTick.consumeKey x)).unless
      (changed := fun p => p ∈ [.reg x, .wait, .dt, .st] ∨ HostSide p) (by simp)
    exact (hbegin.trans hconsume).trans hcount
  · intro hnone
    rw [waitingTick_keys] at hnone
    have hkeep := consumeKey_of_none x (leastPressed_eq_none.2 hnone)
    rw [State.waitingTick, hkeep]
    have hbegin := (keeps_beginTick s).mono (changed' := fun p => p ∈ [.dt, .st] ∨ HostSide p)
      fun _ => .inr
    exact hbegin.trans ((keeps_countTimers s.beginTick).unless fun _ => .inl)

end Sys2Proof.Machine
end

section
/-! Memory in canonical form is determined by its bytes, so that the parts are the whole state (log 8);
and what construction leaves (70_reset_and_hazards.md R243). -/

namespace Sys2Proof.Machine

namespace Memory

/-- The canonical form of a non-empty memory, clause by clause. -/
theorem wfAbove_cons {lo : Option Nat} {cell : Host.Cell} {rest : Memory} :
    wfAbove lo (cell :: rest) = true ↔ lo.all (· < cell.1) = true ∧ cell.1 < Config.memSize ∧
      cell.2 ≠ initialByte cell.1 ∧ wfAbove (some cell.1) rest = true := by
  simp [wfAbove, and_assoc]

theorem byteAt_cons_self (cell : Host.Cell) (rest : Memory) :
    byteAt (cell :: rest) cell.1 = cell.2 := if_pos rfl

theorem byteAt_cons_of_ne {cell : Host.Cell} {a : Nat} (h : cell.1 ≠ a) (rest : Memory) :
    byteAt (cell :: rest) a = byteAt rest a := if_neg h

/-- A canonical memory that reads as at construction everywhere lists nothing. -/
theorem eq_nil_of_byteAt {lo : Option Nat} {m : Memory} (h : wfAbove lo m = true)
    (hb : ∀ a, byteAt m a = initialByte a) : m = [] := by
  cases m with
  | nil => rfl
  | cons cell rest =>
    obtain ⟨-, -, hne, -⟩ := wfAbove_cons.1 h
    exact absurd (hb cell.1) (by rwa [byteAt_cons_self])

/-- The first listed address of one canonical memory is not below that of another that reads the same. -/
theorem not_lt_of_byteAt {lo : Option Nat} {cell cell' : Host.Cell} {rest rest' : Memory}
    (h : wfAbove lo (cell :: rest) = true) (h' : wfAbove lo (cell' :: rest') = true)
    (hb : byteAt (cell :: rest) cell.1 = byteAt (cell' :: rest') cell.1) : ¬ cell.1 < cell'.1 := by
  intro hlt
  obtain ⟨-, -, hne, -⟩ := wfAbove_cons.1 h
  obtain ⟨-, -, -, hrest'⟩ := wfAbove_cons.1 h'
  rw [byteAt_cons_self, byteAt_cons_of_ne hlt.ne', byteAt_of_wfAbove hrest' hlt.le] at hb
  exact hne hb

theorem eq_of_byteAt_of_wfAbove {lo : Option Nat} {m m' : Memory} (h : wfAbove lo m = true)
    (h' : wfAbove lo m' = true) (hb : ∀ a, byteAt m a = byteAt m' a) : m = m' := by
  induction m generalizing lo m' with
  | nil => exact (eq_nil_of_byteAt h' fun a => (hb a).symm).symm
  | cons cell rest ih =>
    cases m' with
    | nil => exact eq_nil_of_byteAt h hb
    | cons cell' rest' =>
      have hge := not_lt_of_byteAt h h' (hb cell.1)
      have hle := not_lt_of_byteAt h' h (hb cell'.1).symm
      have haddr : cell.1 = cell'.1 := by omega
      have hbyte : cell.2 = cell'.2 := by
        have hread := hb cell.1
        rwa [byteAt_cons_self, haddr, byteAt_cons_self] at hread
      have hcell : cell = cell' := Prod.ext haddr hbyte
      subst hcell
      obtain ⟨-, -, -, hrest⟩ := wfAbove_cons.1 h
      obtain ⟨-, -, -, hrest'⟩ := wfAbove_cons.1 h'
      rw [ih hrest hrest' fun a => ?_]
      by_cases ha : cell.1 = a
      · rw [byteAt_of_wfAbove hrest ha.ge, byteAt_of_wfAbove hrest' ha.ge]
      · rw [← byteAt_cons_of_ne ha rest, ← byteAt_cons_of_ne ha rest', hb a]

/-- The canonical form is canonical: it is determined by what it reads as. -/
theorem eq_of_byteAt {m m' : Memory} (h : wf m = true) (h' : wf m' = true)
    (hb : ∀ a, byteAt m a = byteAt m' a) : m = m' :=
  eq_of_byteAt_of_wfAbove h h' hb

end Memory

theorem fb_eq_of_pixel {fb fb' : Framebuffer} (h : ∀ r c, pixel fb' r c = pixel fb r c) : fb' = fb := by
  ext r hr c hc
  exact h ⟨r, hr⟩ ⟨c, hc⟩

/-- Settles O53, part by part; the memories by their canonical form. -/
theorem statesThatReadTheSameAreEqual : Obligations.StatesThatReadTheSameAreEqual := by
  intro s t hs ht h
  have hkeeps (p : Part) : Keeps s t p := h p (by simp)
  have hv : t.v = s.v := Vector.ext fun k hk => hkeeps (.reg ⟨k, hk⟩)
  have hstack : t.stack = s.stack := Vector.ext fun k hk => hkeeps (.slot ⟨k, hk⟩)
  have hkeys : t.keys = s.keys := Vector.ext fun k hk => hkeeps (.key ⟨k, hk⟩)
  have hmem : t.mem = s.mem := Memory.eq_of_byteAt ht hs fun a => hkeeps (.byte a)
  have hfb : t.fb = s.fb := fb_eq_of_pixel fun r c => hkeeps (.pixel r c)
  cases s
  cases t
  simp only [State.mk.injEq]
  exact ⟨hv, hkeeps .i, hkeeps .pc, hkeeps .sp, hstack, hkeeps .dt, hkeeps .st, hkeeps .wait,
    hkeeps .fault, hmem, hfb, hkeys, hkeeps .fbWritten, hkeeps .draws, hkeeps .keyInput⟩

/-! ### Construction -/

/-- The state of R240 with the program in place (R243). -/
def constructed (program : List Byte) (keys : Keypad) (input : List Keypad) : State :=
  { State.reset.storeBytes Config.programBase program with keys := keys, keyInput := input }

theorem construct_of_le {program : List Byte} (h : program.length ≤ Config.maxProgramLen)
    (keys : Keypad) (input : List Keypad) :
    construct program keys input = .next (constructed program keys input) :=
  if_neg (Nat.not_lt.2 h)

theorem construct_of_gt {program : List Byte} (h : Config.maxProgramLen < program.length)
    (keys : Keypad) (input : List Keypad) :
    construct program keys input = .fault .loadOversize :=
  if_pos h

theorem construct_eq_next {program : List Byte} {keys : Keypad} {input : List Keypad} {s : State}
    (h : construct program keys input = .next s) :
    program.length ≤ Config.maxProgramLen ∧ s = constructed program keys input := by
  rcases Nat.lt_or_ge Config.maxProgramLen program.length with hgt | hle
  · rw [construct_of_gt hgt] at h
    cases h
  · rw [construct_of_le hle] at h
    cases h
    exact ⟨hle, rfl⟩

/-- Settles O17: storing no byte leaves the reset state. -/
theorem resetIsEmptyConstruction : Obligations.ResetIsEmptyConstruction :=
  construct_of_le (program := []) (Nat.zero_le _) _ _

section memory
variable {program : List Byte} (hle : program.length ≤ Config.maxProgramLen) (keys : Keypad)
  (input : List Keypad)
include hle

theorem programBase_add_length_le : 0x200 + program.length ≤ 4096 :=
  Nat.add_le_add_left hle 0x200

theorem wf_mem_constructed : Memory.wf (constructed program keys input).mem = true :=
  Memory.wf_putBytes rfl (programBase_add_length_le hle)

/-- What a constructed memory reads as: the program from 0x200 on, elsewhere what an unlisted address
does. -/
theorem byteAt_constructed (a : Nat) : Memory.byteAt (constructed program keys input).mem a =
    if 0x200 ≤ a then program.getD (a - 0x200) (Memory.initialByte a) else Memory.initialByte a :=
  Memory.byteAt_putBytes rfl (programBase_add_length_le hle) a

theorem byteAt_constructed_of_lt {a : Nat} (ha : a < 0x200) :
    Memory.byteAt (constructed program keys input).mem a = Memory.initialByte a := by
  rw [byteAt_constructed hle, if_neg (Nat.not_le.2 ha)]

theorem byteAt_constructed_program {k : Nat} (hk : k < program.length) :
    Memory.byteAt (constructed program keys input).mem (0x200 + k) = program.getD k 0 := by
  rw [byteAt_constructed hle, if_pos (Nat.le_add_right ..), Nat.add_sub_cancel_left,
    List.getD_eq_getElem _ _ hk, List.getD_eq_getElem _ _ hk]

theorem byteAt_constructed_past {a : Nat} (ha : 0x200 + program.length ≤ a) :
    Memory.byteAt (constructed program keys input).mem a = Memory.initialByte a := by
  rw [byteAt_constructed hle, if_pos (by omega), List.getD_eq_default _ _ (by omega)]

end memory

/-- Outside the font, from 0x050 to 0x09F, memory starts zeroed (20_memory.md R42, R50). -/
theorem initialByte_of_not_font {a : Nat} (ha : a < 0x050 ∨ 0x0A0 ≤ a) : Memory.initialByte a = 0 := by
  unfold Memory.initialByte
  split
  · next hbase =>
    have hbase : 0x050 ≤ a := hbase
    have hpast : 80 ≤ a - 0x050 := by omega
    exact List.getD_eq_default _ _ hpast
  · rfl

theorem glyph_constructed {program : List Byte} (hle : program.length ≤ Config.maxProgramLen)
    (keys : Keypad) (input : List Keypad) {d : Nat} (hd : d < 16) :
    (List.range 5).map (fun k => Memory.byteAt (constructed program keys input).mem (0x050 + 5 * d + k)) =
      (List.range 5).map fun k => Memory.initialByte (0x050 + 5 * d + k) := by
  refine List.map_congr_left fun k hk => byteAt_constructed_of_lt hle keys input ?_
  have : k < 5 := List.mem_range.1 hk
  omega

/-- Settles O16: construction by its length check, the bytes of memory by where they lie. -/
theorem constructionLoadsTheProgram : Obligations.ConstructionLoadsTheProgram := by
  intro program keys input
  refine ⟨fun hle => ?_, fun hgt => construct_of_gt hgt keys input⟩
  have hzero : ∀ a < 4096, a < 0x050 ∨ (0x0A0 ≤ a ∧ a < 0x200) ∨ 0x200 + program.length ≤ a →
      Memory.byteAt (constructed program keys input).mem a = 0 := by
    rintro a - (ha | ⟨ha, ha'⟩ | ha)
    · rw [byteAt_constructed_of_lt hle keys input (by omega), initialByte_of_not_font (.inl ha)]
    · rw [byteAt_constructed_of_lt hle keys input ha', initialByte_of_not_font (.inr ha)]
    · rw [byteAt_constructed_past hle keys input ha, initialByte_of_not_font (.inr (by omega))]
  refine ⟨_, construct_of_le hle keys input, fun x => ?_, rfl, rfl, rfl, fun k => ?_, rfl, rfl, rfl,
    rfl, pixel_blank, rfl, rfl, fun k => byteAt_constructed_program hle keys input, hzero, ?_⟩
  · simp [State.readV, constructed, State.reset]
  · simp [constructed, State.reset]
  · intro glyph
    have hglyph {d : Nat} (hd : d < 16) := glyph_constructed hle keys input hd
    exact ⟨hglyph (d := 0) (by decide), hglyph (d := 1) (by decide), hglyph (d := 2) (by decide),
      hglyph (d := 3) (by decide), hglyph (d := 4) (by decide), hglyph (d := 5) (by decide),
      hglyph (d := 6) (by decide), hglyph (d := 7) (by decide), hglyph (d := 8) (by decide),
      hglyph (d := 9) (by decide), hglyph (d := 10) (by decide), hglyph (d := 11) (by decide),
      hglyph (d := 12) (by decide), hglyph (d := 13) (by decide), hglyph (d := 14) (by decide),
      hglyph (d := 15) (by decide)⟩

/-! ### Constructed states are legal -/

theorem legal_constructed {program : List Byte} (hle : program.length ≤ Config.maxProgramLen)
    (keys : Keypad) (input : List Keypad) : (constructed program keys input).Legal where
  sp_le := Nat.zero_le _
  mem_wf := wf_mem_constructed hle keys input
  fault_truthful := nofun
  fault_not_waiting := nofun
  fault_not_written := nofun

/-- Settles O46; the reset state is construction with no program. -/
theorem constructedStatesAreLegal : Obligations.ConstructedStatesAreLegal := by
  have hlegal : ∀ program keys input s, construct program keys input = .next s → s.Legal := by
    intro program keys input s h
    obtain ⟨hle, rfl⟩ := construct_eq_next h
    exact legal_constructed hle keys input
  exact ⟨hlegal _ _ _ _ resetIsEmptyConstruction, hlegal⟩

end Sys2Proof.Machine
end

section
/-! The legal states are kept by every tick, so a session runs forever (40_engine_cycle.md R74,
60_exceptions.md R216 to R221). -/

namespace Sys2Proof.Machine

/-! ### Records that tell the truth -/

theorem sp_eq_of_toNat {s : State} {b : Byte} (h : s.sp.toNat = b.toNat) : s.sp = b :=
  BitVec.eq_of_toNat_eq h

/-- What an instruction accesses through I depends on I alone. -/
theorem lastAccess_congr {s t : State} (h : t.i = s.i) (i : Instr) :
    lastAccess i t = lastAccess i s := by
  cases i <;> simp [lastAccess, h]

/-- A record that an instruction raised in a state like `t`, with the word that `t` fetches, is true of
`t`. -/
theorem truthful_of_raisesIn {i : Instr} {s t : State} {kind : FaultKind} {pc0 : Word}
    {extra : Option Nat} (h : RaisesIn s i kind extra) (hi : t.i = s.i) (hsp : t.sp = s.sp)
    (hv : t.v = s.v) (hpc : pc0 = t.pc) (hwf : decode (encode i) = .instr i)
    (hfetch : t.fetch = some (encode i)) :
    FaultRecord.Truthful ⟨kind, some (encode i), pc0, extra⟩ t := by
  refine ⟨hpc, fun _ => ⟨rfl, hfetch.symm⟩, ?_⟩
  cases h with
  | stackOverflow nnn hfull => exact ⟨rfl, sp_eq_of_toNat (hsp ▸ hfull), nnn, rfl⟩
  | stackUnderflow hempty => exact ⟨rfl, sp_eq_of_toNat (hsp ▸ hempty), rfl⟩
  | @keyIndex _ x hskip habove =>
    rw [← readV_congr hv x] at habove ⊢
    exact ⟨x, rfl, habove, by rcases hskip with rfl | rfl <;> simp⟩
  | @memoryBounds _ last hlast hge =>
    rw [← lastAccess_congr hi] at hlast
    exact ⟨by rw [hi], _, i, last, rfl, hwf, hlast, hge⟩

theorem truthful_fetchBounds {t : State} {pc0 : Word} (hpc : pc0 = t.pc) (h : t.fetch = none) :
    FaultRecord.Truthful ⟨.fetchBounds, none, pc0, none⟩ t :=
  ⟨hpc, fun hne => absurd rfl hne, rfl, rfl, fetch_eq_none_iff.1 h⟩

theorem truthful_decodeFailure {t : State} {pc0 op : Word} (hpc : pc0 = t.pc)
    (hfetch : t.fetch = some op) (hd : decode op = .invalid op) :
    FaultRecord.Truthful ⟨.decodeFailure, some op, pc0, none⟩ t :=
  ⟨hpc, fun _ => ⟨rfl, hfetch.symm⟩, rfl, op, rfl, hd⟩

/-! ### Every tick keeps the state legal -/

/-- Without a fault, only SP and memory have to be legal. -/
theorem legal_of_fault_none {t : State} (hf : t.fault = none)
    (hsp : t.sp.toNat ≤ Config.stackDepth) (hmem : Memory.wf t.mem = true) : t.Legal where
  sp_le := hsp
  mem_wf := hmem
  fault_truthful r hr := by simp [hf] at hr
  fault_not_waiting h := by simp [hf] at h
  fault_not_written h := by simp [hf] at h

/-- A fault taken in a tick that had not written anything yet leaves a legal state when its record is
true of it. -/
theorem legal_takeFault {s s' : State} {r : FaultRecord} (hs : s.Legal) (hw : s.wait = none)
    (hs' : s' = s.beginTick ∨ s' = s.beginTick.advance)
    (hr : r.Truthful (s'.takeFault r)) : (s'.takeFault r).Legal where
  sp_le := by rcases hs' with rfl | rfl <;> simpa using hs.sp_le
  mem_wf := by rcases hs' with rfl | rfl <;> simpa using hs.mem_wf
  fault_truthful r' hr' := by
    obtain rfl : r = r' := by simpa using hr'
    exact hr
  fault_not_waiting _ := by rcases hs' with rfl | rfl <;> simpa using hw
  fault_not_written _ := by rcases hs' with rfl | rfl <;> simp

theorem legal_waitingTick {s : State} (hs : s.Legal) (hf : s.fault = none) (x : Reg) :
    (s.beginTick.waitingTick x).Legal :=
  legal_of_fault_none (by simpa using hf) (by simpa using hs.sp_le) (by simpa using hs.mem_wf)

theorem legal_exec {s u : State} {op : Word} {i : Instr} (hs : s.Legal) (hf : s.fault = none)
    (hw : s.wait = none) (ho : s.fetch = some op) (hd : decode op = .instr i)
    (he : exec i s.beginTick.advance = .next u) :
    (if u.fault.isSome then u else u.countTimers).Legal := by
  rcases exec_outcome he with hc | ⟨kind, extra, hraises, rfl⟩
  · have hu : u.fault = none := by simpa [hf] using hc.fault_eq
    have hsp := hc.sp_le (by simpa using hs.sp_le)
    have hmem := hc.mem_wf (by simpa using hs.mem_wf)
    simpa [hu] using legal_of_fault_none (t := u.countTimers) hu hsp hmem
  · obtain ⟨rfl, -⟩ := encode_of_decode hd
    simp only [takeFault_fault, Option.isSome_some, if_true]
    refine legal_takeFault hs hw (.inr rfl) ?_
    refine truthful_of_raisesIn hraises rfl rfl rfl rfl hd ?_
    rw [← ho]
    exact fetch_congr (by simp) (by simp)

/-- Settles O47, by the outcomes of a step. -/
theorem everyTickKeepsTheStateLegal : Obligations.EveryTickKeepsTheStateLegal := by
  intro s t hs h
  rcases step_cases h with ⟨-, rfl⟩ | ⟨hf, x, -, rfl⟩ | ⟨-, hw, ho, rfl⟩ |
    ⟨-, hw, op, bad, ho, hd, rfl⟩ | ⟨hf, hw, op, i, u, ho, hd, he, rfl⟩
  · exact hs
  · exact legal_waitingTick hs hf x
  · refine legal_takeFault hs hw (.inl rfl) (truthful_fetchBounds rfl ?_)
    rw [← ho]
    exact fetch_congr rfl (by simp)
  · obtain rfl := eq_of_decode_invalid hd
    refine legal_takeFault hs hw (.inr rfl) (truthful_decodeFailure rfl ?_ hd)
    rw [← ho]
    exact fetch_congr rfl (by simp)
  · exact legal_exec hs hf hw ho hd he

/-! ### No legal state stops -/

theorem finishTick_next (t : State) : ∃ u, finishTick (.next t) = .next u := ⟨_, rfl⟩

theorem executeWord_answers {s : State} (h : s.sp.toNat ≤ Config.stackDepth) (op : Word) :
    ∃ t, executeWord op s = .next t := by
  unfold executeWord
  split
  · exact ⟨_, rfl⟩
  · next i _ =>
    obtain ⟨t, ht⟩ := exec_next_of_sp_le (s := s.advance) h i
    exact ht ▸ finishTick_next t

/-- Settles O48: with SP at most 16 no branch of a tick stops. -/
theorem legalStatesNeverStop : Obligations.LegalStatesNeverStop := by
  intro s hs
  cases hf : s.fault with
  | some r => exact ⟨s, step_of_faulted (by simp [hf])⟩
  | none =>
    cases hw : s.wait with
    | some x => exact ⟨_, step_of_waiting hf hw⟩
    | none =>
      cases ho : s.fetch with
      | none => exact ⟨_, step_of_fetch_none hf hw ho⟩
      | some op =>
        rw [step_of_fetch hf hw ho]
        exact executeWord_answers (by simpa using hs.sp_le) op

/-! ### Sessions -/

theorem legal_of_reachable {s : State} (h : Reachable s) : s.Legal := by
  induction h with
  | constructed program keys input s h => exact constructedStatesAreLegal.2 program keys input s h
  | ticked s t _ h ih => exact everyTickKeepsTheStateLegal s t ih h

/-- Settles O49, by induction on the number of ticks: a reachable state is legal, so it ticks, to a
reachable state. -/
theorem everySessionRunsForever : Obligations.EverySessionRunsForever := by
  intro s hs n
  induction n generalizing s with
  | zero => exact ⟨s, rfl, hs, legal_of_reachable hs⟩
  | succ n ih =>
    obtain ⟨t, ht⟩ := legalStatesNeverStop s (legal_of_reachable hs)
    rw [run_succ ht]
    exact ih t (hs.ticked s t ht)

end Sys2Proof.Machine
end

section
/-! Idling: ticks that count the timers down and change nothing else, however many they are
(40_engine_cycle.md R74, 45_timers_keys.md R177). -/

namespace Sys2Proof.Machine

/-- What idle ticks may change: the timers and the host's side. -/
def IdleParts (p : Part) : Prop := p ∈ [.dt, .st] ∨ HostSide p

/-- `t` is `s` after `n` idle ticks. -/
structure IdlesTo (n : Nat) (s t : State) : Prop where
  dt : t.dt.toNat = s.dt.toNat - n
  st : t.st.toNat = s.st.toNat - n
  frame : KeepsUnless IdleParts s t

theorem IdlesTo.refl (s : State) : IdlesTo 0 s s := ⟨rfl, rfl, KeepsUnless.refl _ s⟩

theorem IdlesTo.succ {n : Nat} {s t u : State} (h : IdlesTo 1 s t) (h' : IdlesTo n t u) :
    IdlesTo (n + 1) s u where
  dt := by rw [h'.dt, h.dt]; omega
  st := by rw [h'.st, h.st]; omega
  frame := h.frame.trans h'.frame

/-- An invariant under which every tick idles lets any number of ticks idle. -/
theorem run_idles {Inv : State → Prop}
    (htick : ∀ s, Inv s → ∃ t, step s = .next t ∧ Inv t ∧ IdlesTo 1 s t) (n : Nat) {s : State}
    (hs : Inv s) : ∃ t, core.run n s = .next t ∧ IdlesTo n s t := by
  induction n generalizing s with
  | zero => exact ⟨s, rfl, .refl s⟩
  | succ n ih =>
    obtain ⟨t, hstep, ht, hidle⟩ := htick s hs
    obtain ⟨u, hrun, hidles⟩ := ih ht
    exact ⟨u, by rw [run_succ hstep, hrun], hidle.succ hidles⟩

/-- Steps 1 and 4 of a tick with nothing between them idle. -/
theorem idlesTo_beginTick_countTimers (s : State) : IdlesTo 1 s s.beginTick.countTimers where
  dt := by simp [toNat_countDown]
  st := by simp [toNat_countDown]
  frame := ((keeps_beginTick s).mono fun _ => .inr).trans
    ((keeps_countTimers s.beginTick).unless fun _ => .inl)

/-! ### Waiting with no key pressed -/

/-- The core waits for x and the host presses no key, now or later. -/
structure WaitsInVain (x : Reg) (s : State) : Prop where
  fault : s.fault = none
  wait : s.wait = some x
  keys : ∀ k : Reg, s.keys[k] = false
  later : ∀ keys ∈ s.keyInput, ∀ k : Reg, keys[k] = false

/-- The next sample has no key pressed either. -/
theorem WaitsInVain.sampled {x : Reg} {s : State} (h : WaitsInVain x s) (k : Reg) :
    (s.keyInput.headD s.keys)[k] = false := by
  cases hin : s.keyInput with
  | nil => exact h.keys k
  | cons now later => exact h.later now (by simp [hin]) k

theorem WaitsInVain.tick {x : Reg} {s : State} (h : WaitsInVain x s) :
    ∃ t, step s = .next t ∧ WaitsInVain x t ∧ IdlesTo 1 s t := by
  have hnone : leastPressed s.beginTick.keys = none :=
    leastPressed_eq_none.2 fun k => by simpa using h.sampled k
  have hstep : step s = .next s.beginTick.countTimers := by
    rw [step_of_waiting h.fault h.wait, State.waitingTick, consumeKey_of_none x hnone]
  refine ⟨_, hstep, ⟨?_, ?_, ?_, ?_⟩, idlesTo_beginTick_countTimers s⟩
  · simpa using h.fault
  · simpa using h.wait
  · intro k
    simpa using h.sampled k
  · intro keys hkeys
    exact h.later keys (List.mem_of_mem_tail (by simpa using hkeys))

/-- Settles O12: waiting in vain is an invariant under which every tick idles. -/
theorem waitWithoutAKeyTicksForever : Obligations.WaitWithoutAKeyTicksForever := by
  intro s x n hf hw hkeys hlater
  obtain ⟨t, hrun, ⟨hdt, hst, hframe⟩⟩ :=
    run_idles (fun _ => WaitsInVain.tick) n (WaitsInVain.mk hf hw hkeys hlater)
  exact ⟨t, hrun, hdt, hst, hframe⟩

/-! ### A jump to itself -/

/-- The core is about to fetch a jump to where it stands. -/
structure JumpsToSelf (nnn : Addr12) (s : State) : Prop where
  fault : s.fault = none
  wait : s.wait = none
  pc : s.pc = addressOf nnn
  fetch : s.fetch = some (wordNNN 0x1 nnn)

theorem decode_wordNNN_one (nnn : Addr12) : decode (wordNNN 0x1 nnn) = .instr (.jp nnn) :=
  decode_wordNNN 1 rfl rfl

theorem exec_jp (nnn : Addr12) (s : State) : exec (.jp nnn) s = .next (s.writePc (addressOf nnn)) :=
  rfl

/-- Jumping back to where the tick began undoes step 2. -/
theorem writePc_advance_of_pc_eq {s : State} {w : Word} (h : s.pc = w) : s.advance.writePc w = s := by
  subst h
  rfl

theorem JumpsToSelf.tick {nnn : Addr12} {s : State} (h : JumpsToSelf nnn s) :
    ∃ t, step s = .next t ∧ JumpsToSelf nnn t ∧ IdlesTo 1 s t := by
  have hexec : exec (.jp nnn) s.beginTick.advance = .next s.beginTick := by
    rw [exec_jp, writePc_advance_of_pc_eq (by simpa using h.pc)]
  have hstep : step s = .next s.beginTick.countTimers :=
    step_of_completes h.fault h.wait h.fetch (decode_wordNNN_one nnn) hexec (by simpa using h.fault)
  refine ⟨_, hstep, ⟨?_, ?_, ?_, ?_⟩, idlesTo_beginTick_countTimers s⟩
  · simpa using h.fault
  · simpa using h.wait
  · simpa using h.pc
  · rw [← h.fetch]
    exact fetch_congr (by simp) (by simp)

/-- Settles O13: standing at a jump to itself is an invariant under which every tick idles. -/
theorem jumpToSelfIdlesForever : Obligations.JumpToSelfIdlesForever := by
  intro s nnn n hf hw hpc hfetch
  have hpc : s.pc = addressOf nnn := BitVec.eq_of_toNat_eq (by rw [hpc, toNat_addressOf])
  obtain ⟨t, hrun, ⟨hdt, hst, hframe⟩⟩ :=
    run_idles (fun _ => JumpsToSelf.tick) n (JumpsToSelf.mk hf hw hpc hfetch)
  exact ⟨t, hrun, hdt, hst, hframe⟩

end Sys2Proof.Machine
end

section
/-! The sound timer (10_state.md R28): two states that differ in ST alone tick to states that differ in
ST alone. Every operation commutes with a write of ST. -/

namespace Sys2Proof.Machine

variable {s t : State} {b : Byte}

/-- A result with ST overwritten in the next state, if there is one. -/
def resultWithSt (b : Byte) (r : Result) : Result :=
  match r with
  | .next t => .next (t.writeSt b)
  | .fault f => .fault f
  | .refused f => .refused f

theorem checkRange_writeSt (op : Word) (base len : Nat) (s done : State) (b : Byte) :
    checkRange op base len (s.writeSt b) (done.writeSt b) =
      resultWithSt b (checkRange op base len s done) := by
  unfold checkRange
  split <;> rfl

theorem skipIf_writeSt (s : State) (b : Byte) (c : Bool) :
    (s.writeSt b).skipIf c = (s.skipIf c).writeSt b := by
  cases c <;> rfl

theorem skipOnKey_writeSt (op : Word) (x : Reg) (wanted : Bool) (s : State) (b : Byte) :
    skipOnKey op x wanted (s.writeSt b) = resultWithSt b (skipOnKey op x wanted s) := by
  have hline : (s.writeSt b).keyLine ((s.writeSt b).readV x) = s.keyLine (s.readV x) := rfl
  unfold skipOnKey
  rw [hline]
  split
  · exact congrArg _ (skipIf_writeSt s b _)
  · rfl

theorem execCall_writeSt (nnn : Addr12) (s : State) (b : Byte) :
    execCall nnn (s.writeSt b) = resultWithSt b (execCall nnn s) := by
  unfold execCall
  rw [writeSt_sp]
  split_ifs <;> rfl

theorem execRet_writeSt (s : State) (b : Byte) :
    execRet (s.writeSt b) = resultWithSt b (execRet s) := by
  have hreturn : (s.writeSt b).returnAddress = s.returnAddress := rfl
  unfold execRet
  rw [writeSt_sp, hreturn]
  split
  · rfl
  · split <;> rfl

theorem execLdVxKey_writeSt (x : Reg) (s : State) (b : Byte) :
    execLdVxKey x (s.writeSt b) = resultWithSt b (execLdVxKey x s) := by
  unfold execLdVxKey
  rw [writeSt_keys]
  split <;> rfl

/-- An instruction neither reads ST nor, but for LD ST, Vx, writes it. -/
theorem exec_writeSt (i : Instr) (s : State) (b : Byte) :
    (∃ x, i = .ldStVx x) ∨ exec i (s.writeSt b) = resultWithSt b (exec i s) := by
  cases i with
  | ldStVx x => exact .inl ⟨x, rfl⟩
  | call nnn => exact .inr (execCall_writeSt nnn s b)
  | ret => exact .inr (execRet_writeSt s b)
  | seImm | sneImm | seReg | sneReg => exact .inr (congrArg _ (skipIf_writeSt s b _))
  | skp | sknp => exact .inr (skipOnKey_writeSt _ _ _ s b)
  | ldVxKey x => exact .inr (execLdVxKey_writeSt x s b)
  | drw x y n => exact .inr (checkRange_writeSt _ _ _ s
      ((s.writeFb (s.drawn x y n).fb).writeFlag (s.drawn x y n).hit) b)
  | ldBcd x => exact .inr (checkRange_writeSt _ _ _ s
      (s.storeBytes s.i.toNat (bcdDigits (s.readV x))) b)
  | storeRegs x => exact .inr (checkRange_writeSt _ _ _ s
      (s.storeBytes s.i.toNat (s.firstV x)) b)
  | loadRegs x => exact .inr (checkRange_writeSt _ _ _ s
      (s.writeFirstV (Memory.bytesFrom s.mem s.i.toNat (x.val + 1))) b)
  | _ => exact .inr rfl

/-- States that differ in ST alone execute an instruction to states that differ in ST alone. -/
theorem exec_next_writeSt {i : Instr} (h : exec i s = .next t) (b : Byte) :
    ∃ b', exec i (s.writeSt b) = .next (t.writeSt b') := by
  rcases exec_writeSt i s b with ⟨x, rfl⟩ | hcomm
  · cases h
    exact ⟨s.readV x, rfl⟩
  · exact ⟨b, by rw [hcomm, h, resultWithSt]⟩

theorem beginTick_writeSt (s : State) (b : Byte) : (s.writeSt b).beginTick = s.beginTick.writeSt b := by
  unfold State.beginTick State.sampleKeys
  rw [writeSt_keyInput]
  split <;> rfl

theorem waitingTick_writeSt (s : State) (b : Byte) (x : Reg) :
    (s.writeSt b).waitingTick x = (s.waitingTick x).writeSt (countDown b) := by
  unfold State.waitingTick State.consumeKey
  rw [writeSt_keys]
  split <;> rfl

/-- Step 4 of two states that differ in ST alone. -/
theorem finishTick_writeSt (t : State) (b : Byte) : ∃ u b',
    finishTick (.next t) = .next u ∧ finishTick (.next (t.writeSt b)) = .next (u.writeSt b') := by
  by_cases hf : t.fault.isSome = true
  · exact ⟨t, b, by simp [finishTick, hf], by simp [finishTick, hf]⟩
  · exact ⟨t.countTimers, countDown b, by simp [finishTick, hf], by simp [finishTick, hf]; rfl⟩

/-- A step from a state with another ST answers the same next state, but for ST. -/
theorem step_writeSt (h : step s = .next t) (b : Byte) :
    ∃ b', step (s.writeSt b) = .next (t.writeSt b') := by
  rcases step_cases h with ⟨hf, rfl⟩ | ⟨hf, x, hw, rfl⟩ | ⟨hf, hw, ho, rfl⟩ |
    ⟨hf, hw, op, bad, ho, hd, rfl⟩ | ⟨hf, hw, op, i, u, ho, hd, he, rfl⟩
  · exact ⟨b, step_of_faulted (Option.isSome_iff_ne_none.1 hf)⟩
  · exact ⟨countDown b, by
      rw [step_of_waiting (s := s.writeSt b) hf hw, beginTick_writeSt, waitingTick_writeSt]⟩
  · exact ⟨b, by
      rw [step_of_fetch_none (s := s.writeSt b) hf hw ho, beginTick_writeSt]; rfl⟩
  · obtain rfl := eq_of_decode_invalid hd
    exact ⟨b, by rw [step_of_invalid (s := s.writeSt b) hf hw ho hd, beginTick_writeSt]; rfl⟩
  · obtain ⟨b', he'⟩ := exec_next_writeSt he b
    obtain ⟨v, b'', hv, hv'⟩ := finishTick_writeSt u b'
    have hadvance : (s.writeSt b).beginTick.advance = s.beginTick.advance.writeSt b := by
      rw [beginTick_writeSt]; rfl
    refine ⟨b'', ?_⟩
    rw [step_of_instr (s := s.writeSt b) hf hw ho hd, hadvance, he', hv']
    cases hv
    rfl

/-- Settles O52: the two next states are equal but for a write of ST. -/
theorem soundTimerAffectsOnlyItself : Obligations.SoundTimerAffectsOnlyItself := by
  intro s t b h
  obtain ⟨b', h'⟩ := step_writeSt h b
  exact ⟨_, h', keeps_writeSt t b'⟩

end Sys2Proof.Machine
end

section
/-! Control transfer (41_control_flow.md): the jumps, CALL and RET. -/

namespace Sys2Proof.Machine

/-- Raising a fault in step 3 is what `RaisedFrom` says (60_exceptions.md R218). -/
theorem raisedFrom_takeFault (s : State) (kind : FaultKind) (op : Word) (extra : Option Nat) :
    RaisedFrom s (s.takeFault ⟨kind, some op, s.pc - 2, extra⟩) kind op extra :=
  ⟨rfl, rfl, keeps_takeFault s _⟩

/-! ### Jumps (R82, R85) -/

@[simp] theorem toNat_zext16 (b : Byte) : (zext16 b).toNat = b.toNat :=
  BitVec.toNat_setWidth_of_le (by decide)

theorem exec_jpV0 (nnn : Addr12) (s : State) :
    exec (.jpV0 nnn) s = .next (s.writePc (addressOf nnn + zext16 (s.readV 0))) := rfl

/-- The target of JP V0 does not wrap. -/
theorem toNat_addressOf_add_zext16 (nnn : Addr12) (b : Byte) :
    (addressOf nnn + zext16 b).toNat = nnn.toNat + b.toNat := by
  have hnnn := nnn.isLt
  have hb := b.isLt
  rw [BitVec.toNat_add_of_lt] <;> simp only [toNat_addressOf, toNat_zext16]
  omega

/-- A tick that stands past the last fetchable address faults there (R68, 60_exceptions.md R212). -/
theorem step_fetchBounds_of_le {s : State} (hf : s.fault = none) (hw : s.wait = none)
    (hpc : 0xFFF ≤ s.pc.toNat) :
    ∃ u, step s = .next u ∧ u.fault = some ⟨.fetchBounds, none, s.pc, none⟩ :=
  ⟨_, step_of_fetch_none hf hw (fetch_eq_none_iff.2 (Nat.succ_le_succ hpc)), rfl⟩

/-- Settles O19: each jump is a single write of PC, and the next fetch fails past 0xFFE. -/
theorem jumpsSetPc : Obligations.JumpsSetPc := by
  intro nnn s
  refine ⟨decode_wordNNN_one nnn, decode_wordNNN 11 rfl rfl, ?_, ?_⟩
  · refine ⟨_, exec_jp nnn s, toNat_addressOf nnn, keeps_writePc s _, fun hf hw hlast => ?_⟩
    obtain rfl : nnn = 0xFFF := BitVec.eq_of_toNat_eq hlast
    exact step_fetchBounds_of_le (s := (s.writePc 0xFFF).countTimers) hf hw (by simp)
  · have hpc := toNat_addressOf_add_zext16 nnn (s.readV 0)
    refine ⟨_, exec_jpV0 nnn s, hpc, keeps_writePc s _, fun hf hw hpast => ?_⟩
    rw [← hpc] at hpast
    exact step_fetchBounds_of_le
      (s := (s.writePc (addressOf nnn + zext16 (s.readV 0))).countTimers) hf hw hpast

/-! ### The call stack (R83, R84) -/

theorem exec_call_of_sp_lt {s : State} (h : s.sp.toNat < 16) (nnn : Addr12) :
    exec (.call nnn) s = .next (s.pushPc.writePc (addressOf nnn)) :=
  (if_neg h.ne).trans (if_pos h)

theorem exec_call_of_sp_eq {s : State} (h : s.sp.toNat = 16) (nnn : Addr12) :
    exec (.call nnn) s = raise .stackOverflow (encode (.call nnn)) none s :=
  if_pos h

theorem keeps_pushPc_writePc (s : State) (w : Word) :
    KeepsUnless (fun p => p = .pc ∨ p = .sp ∨ ∃ k : Fin 16, p = .slot k ∧ k.val = s.sp.toNat) s
      (s.pushPc.writePc w) :=
  ((keeps_pushPc s).mono fun _ => .inr).trans ((keeps_writePc s.pushPc w).unless (by simp))

/-- Settles O20, by the two branches of CALL for an SP of at most 16. -/
theorem callPushesPcOrRaisesStackOverflow : Obligations.CallPushesPcOrRaisesStackOverflow := by
  intro nnn s
  refine ⟨decode_wordNNN 2 rfl rfl, fun hlt => ?_, fun hfull => ?_⟩
  · refine ⟨_, exec_call_of_sp_lt hlt nnn, ?_, toNat_sp_add_one hlt, toNat_addressOf nnn, ?_⟩
    · simp
    · intro p hp
      refine keeps_pushPc_writePc s _ p fun hc => hp ?_
      rcases hc with rfl | rfl | ⟨k, rfl, hk⟩
      · simp
      · simp
      · simp [Fin.ext_iff, hk]
  · exact ⟨_, exec_call_of_sp_eq hfull nnn, wordNNN_eq_encNNN 2 nnn ▸ raisedFrom_takeFault s _ _ _⟩

/-- Settles O21, by the branches of RET for an SP of at most 16. -/
theorem retPopsPcOrRaisesStackUnderflow : Obligations.RetPopsPcOrRaisesStackUnderflow := by
  intro s
  refine ⟨decode_encode (i := .ret) rfl, fun hlt hpos => ?_, fun hempty => ?_⟩
  · exact ⟨_, exec_ret_of_sp_pos hpos.ne' hlt, toNat_sp_sub_one hpos.ne', rfl, keeps_popPc s _⟩
  · exact ⟨_, exec_ret_of_sp_zero hempty, raisedFrom_takeFault s _ _ _⟩

end Sys2Proof.Machine
end

section
/-! Skips (42_skips.md). -/

namespace Sys2Proof.Machine

/-- A conditional skip decides PC and keeps the rest (R100). -/
theorem skipIf_frame (s : State) (c : Bool) :
    (s.skipIf c).pc = (if c then s.pc + 2 else s.pc) ∧ KeepsAllBut [.pc] s (s.skipIf c) :=
  ⟨by rw [skipIf_eq, writePc_pc], keeps_skipIf s c⟩

/-- Settles O24: each comparison is a conditional skip on the equality of two bytes, or on its
negation. -/
theorem comparisonSkipsMovePc : Obligations.ComparisonSkipsMovePc := by
  intro x y kk n s
  have heq (a b : Byte) : (s.skipIf (a == b)).pc = (if a.toNat = b.toNat then s.pc + 2 else s.pc) := by
    simp [(skipIf_frame s _).1, BitVec.toNat_inj]
  have hne (a b : Byte) : (s.skipIf (a != b)).pc = (if a.toNat = b.toNat then s.pc else s.pc + 2) := by
    simp [(skipIf_frame s _).1, BitVec.toNat_inj]
  exact ⟨⟨_, rfl, heq _ _, keeps_skipIf s _⟩, ⟨_, rfl, hne _ _, keeps_skipIf s _⟩,
    ⟨_, rfl, heq _ _, keeps_skipIf s _⟩, ⟨_, rfl, hne _ _, keeps_skipIf s _⟩⟩

theorem skipOnKey_of_lt {s : State} {x : Reg} (h : (s.readV x).toNat < 16) (op : Word) (wanted : Bool) :
    skipOnKey op x wanted s = .next (s.skipIf (s.keys[(s.readV x).toNat] == wanted)) := by
  simp [skipOnKey, State.keyLine, h]

theorem skipOnKey_of_gt {s : State} {x : Reg} (h : 15 < (s.readV x).toNat) (op : Word) (wanted : Bool) :
    skipOnKey op x wanted s = raise .keyIndex op (some (s.readV x).toNat) s := by
  have hnone : s.keyLine (s.readV x) = none := Vector.getElem?_eq_none h
  simp [skipOnKey, hnone]

/-- Settles O25, by whether V[x] names a key line. -/
theorem keySkipsReadTheKeyLine : Obligations.KeySkipsReadTheKeyLine := by
  intro x s
  refine ⟨fun hlt => ⟨⟨_, skipOnKey_of_lt hlt _ _, ?_⟩, ⟨_, skipOnKey_of_lt hlt _ _, ?_⟩⟩,
    fun hgt => ⟨⟨_, skipOnKey_of_gt hgt _ _, ?_⟩, ⟨_, skipOnKey_of_gt hgt _ _, ?_⟩⟩⟩
  · simpa using skipIf_frame s (s.keys[(s.readV x).toNat] == true)
  · have hframe := skipIf_frame s (s.keys[(s.readV x).toNat] == false)
    refine ⟨hframe.1.trans ?_, hframe.2⟩
    cases s.keys[(s.readV x).toNat] <;> rfl
  · exact wordXKK_eq_encXKK 14 x 0x9E ▸ raisedFrom_takeFault s _ _ _
  · exact wordXKK_eq_encXKK 14 x 0xA1 ▸ raisedFrom_takeFault s _ _ _

end Sys2Proof.Machine
end

section
/-! ALU (43_alu.md), the index register (44_index_memory.md R152, R153), and the timer and key moves
(45_timers_keys.md R171 to R174). -/

namespace Sys2Proof.Machine

/-- Settles O27: each is a single write of V[x], and BitVec's operators work bit by bit. -/
theorem registerMoveAndLogicWriteVx : Obligations.RegisterMoveAndLogicWriteVx := by
  intro x y s
  refine ⟨⟨_, rfl, readV_writeV_same s x _, keeps_writeV s x _⟩,
    ⟨_, rfl, keeps_writeV s x _, fun k _ => ?_⟩, ⟨_, rfl, keeps_writeV s x _, fun k _ => ?_⟩,
    ⟨_, rfl, keeps_writeV s x _, fun k _ => ?_⟩⟩
  · rw [readV_writeV_same, BitVec.getLsbD_or]
  · rw [readV_writeV_same, BitVec.getLsbD_and]
  · rw [readV_writeV_same, BitVec.getLsbD_xor]

/-! ### Result and flag (R134) -/

theorem toNat_flagByte (f : Bool) : (flagByte f).toNat = if f then 1 else 0 := by
  cases f <;> rfl

theorem readV_writeResultFlag_dest (s : State) {x : Reg} (hx : x ≠ flagReg) (b : Byte) (f : Bool) :
    (s.writeResultFlag x b f).readV x = b := by
  rw [readV_writeResultFlag, if_neg hx, if_pos rfl]

/-- What an instruction that writes a result and a flag leaves, in numbers: the result in V[x] unless x
is F, and the flag in VF also then (10_state.md R23). -/
theorem writeResultFlag_spec (s : State) (x : Reg) {b : Byte} {f : Bool} {result flag : Nat}
    (hb : b.toNat = result) (hf : (if f then 1 else 0) = flag) :
    (x ≠ 15 → ((s.writeResultFlag x b f).readV x).toNat = result) ∧
      ((s.writeResultFlag x b f).readV 15).toNat = flag ∧
      KeepsAllBut [.reg x, .reg 15] s (s.writeResultFlag x b f) := by
  refine ⟨fun hx => by rw [readV_writeResultFlag_dest s hx, hb], ?_, keeps_writeResultFlag s x b f⟩
  rw [readV_writeResultFlag_flagReg, toNat_flagByte, hf]

theorem toNat_byte_sub (a b : Byte) : (a - b).toNat = (a.toNat + 256 - b.toNat) % 256 := by
  have hb := b.isLt
  rw [BitVec.toNat_sub]
  congr 1
  omega

/-- Settles O28: the result modulo 256 and the comparison, each read as numbers. -/
theorem addAndSubtractWriteResultThenFlag : Obligations.AddAndSubtractWriteResultThenFlag := by
  intro x y s a b
  refine ⟨⟨_, rfl, writeResultFlag_spec s x (BitVec.toNat_add ..) ?_⟩,
    ⟨_, rfl, writeResultFlag_spec s x (toNat_byte_sub ..) ?_⟩,
    ⟨_, rfl, writeResultFlag_spec s x (toNat_byte_sub ..) ?_⟩⟩
  · simp [carryFlag, a, b]
  · simp [notBorrowFlag, a, b]
  · simp [notBorrowFlag, a, b]

/-- SHR reads Vx, whatever y is (D3). -/
theorem exec_shr (x y : Reg) (s : State) : exec (.shr x y) s =
    .next (s.writeResultFlag x (s.readV x >>> 1) (shrFlag (s.readV x))) := rfl

/-- SHL reads Vx, whatever y is (D3). -/
theorem exec_shl (x y : Reg) (s : State) : exec (.shl x y) s =
    .next (s.writeResultFlag x (s.readV x <<< 1) (shlFlag (s.readV x))) := rfl

theorem shrFlag_eq (b : Byte) : (if shrFlag b then 1 else 0) = b.toNat % 2 := by
  have hbit : shrFlag b = decide (b.toNat % 2 = 1) := by
    simp [shrFlag, BitVec.getLsbD, Nat.testBit_zero]
  rw [hbit]
  split <;> simp_all

theorem shlFlag_eq (b : Byte) : (if shlFlag b then 1 else 0) = b.toNat / 128 := by
  have hb := b.isLt
  have hbit : shlFlag b = decide (b.toNat / 128 % 2 = 1) := by
    simp [shlFlag, BitVec.getLsbD, Nat.testBit_eq_decide_div_mod_eq]
  rw [hbit]
  split <;> simp_all <;> omega

theorem toNat_byte_shiftRight_one (b : Byte) : (b >>> 1).toNat = b.toNat / 2 := by
  simp [Nat.shiftRight_eq_div_pow]

theorem toNat_byte_shiftLeft_one (b : Byte) : (b <<< 1).toNat = 2 * b.toNat % 256 := by
  simp [Nat.shiftLeft_eq, Nat.mul_comm]

/-- Settles O29: both shift V[x], whatever y is; the flag is the bit that falls out. -/
theorem shiftsWriteResultThenFlag : Obligations.ShiftsWriteResultThenFlag := by
  intro x y s
  exact ⟨⟨_, exec_shr x y s, writeResultFlag_spec s x (toNat_byte_shiftRight_one _) (shrFlag_eq _)⟩,
    ⟨_, exec_shl x y s, writeResultFlag_spec s x (toNat_byte_shiftLeft_one _) (shlFlag_eq _)⟩⟩

theorem keeps_consumeRandom_writeV (s : State) (x : Reg) (b : Byte) :
    KeepsAllBut [.reg x, .draws] s (s.consumeRandom.writeV x b) :=
  ((keeps_consumeRandom s).mono (by simp)).trans ((keeps_writeV _ x b).mono (by simp))

/-- Settles O30: the draw advances the counter by one, and its byte is masked bit by bit. -/
theorem rndMasksOneDraw : Obligations.RndMasksOneDraw := by
  intro x kk s
  refine ⟨_, rfl, rfl, keeps_consumeRandom_writeV s x _, fun k _ => ?_⟩
  rw [readV_writeV_same, BitVec.getLsbD_and]
  rfl

/-! ### I -/

theorem toNat_glyphAddress (b : Byte) : (glyphAddress b).toNat = 0x050 + 5 * b.toNat := by
  have hb := b.isLt
  have hdigit : (glyphAddress b).toNat = (0x050 + 5 * b.toNat) % 65536 := BitVec.toNat_ofNat ..
  omega

/-- Settles O32: each is a single write of I; no glyph address wraps. -/
theorem indexArithmeticSetsI : Obligations.IndexArithmeticSetsI := by
  intro x s
  refine ⟨⟨_, rfl, ?_, keeps_writeI s _⟩, ⟨_, rfl, toNat_glyphAddress _, keeps_writeI s _⟩⟩
  rw [writeI_i, BitVec.toNat_add, toNat_zext16]

/-! ### Timers and keys -/

/-- Settles O39: each is a single write of the value read. -/
theorem timerMovesCopyTheValue : Obligations.TimerMovesCopyTheValue :=
  fun x s => ⟨⟨_, rfl, readV_writeV_same s x _, keeps_writeV s x _⟩,
    ⟨_, rfl, writeDt_dt s _, keeps_writeDt s _⟩, ⟨_, rfl, writeSt_st s _, keeps_writeSt s _⟩⟩

theorem exec_ldVxKey_of_some {s : State} {k : Reg} (x : Reg) (h : leastPressed s.keys = some k) :
    exec (.ldVxKey x) s = .next (s.writeV x (keyValue k)) := by
  simp [exec, execLdVxKey, h]

theorem exec_ldVxKey_of_none {s : State} (x : Reg) (h : leastPressed s.keys = none) :
    exec (.ldVxKey x) s = .next (s.writeWait (some x)) := by
  simp [exec, execLdVxKey, h]

/-- Settles O40, by whether the keypad has a least pressed key. -/
theorem keyWaitTakesTheLeastKeyOrParks : Obligations.KeyWaitTakesTheLeastKeyOrParks := by
  intro x s
  refine ⟨fun k hk hlt => ?_, fun hnone => ?_⟩
  · refine ⟨_, exec_ldVxKey_of_some x (leastPressed_of_least hk hlt), ?_, keeps_writeV s x _⟩
    rw [readV_writeV_same, toNat_keyValue]
  · exact ⟨_, exec_ldVxKey_of_none x (leastPressed_eq_none.2 hnone), rfl, keeps_writeWait s _⟩

end Sys2Proof.Machine
end

section
/-! The countdown of the timers over a whole tick (40_engine_cycle.md R71). -/

namespace Sys2Proof.Machine

/-- The word of an instruction decodes to it alone. -/
theorem eq_of_decode_encode {op : Word} {i j : Instr} (hd : decode op = .instr i)
    (hop : op = encode j) (hj : j.wf = true) : i = j := by
  rw [hop, decode_encode hj] at hd
  cases hd
  rfl

theorem wordXKK_fifteen_eq_encode_ldDtVx (x : Reg) : wordXKK 0xF x 0x15 = encode (.ldDtVx x) :=
  wordXKK_eq_encXKK 15 x 0x15

theorem wordXKK_fifteen_eq_encode_ldStVx (x : Reg) : wordXKK 0xF x 0x18 = encode (.ldStVx x) :=
  wordXKK_eq_encXKK 15 x 0x18

/-- A tick that ends without a fault, from a state without one: it waited, or an instruction completed
before the countdown. -/
theorem step_completes_cases {s t : State} (hf : s.fault = none) (h : step s = .next t)
    (ht : t.fault = none) :
    (∃ x, s.wait = some x ∧ t = s.beginTick.waitingTick x) ∨
    (s.wait = none ∧ ∃ i u, s.fetch = some (encode i) ∧ decode (encode i) = .instr i ∧
      exec i s.beginTick.advance = .next u ∧ Completes i s.beginTick.advance u ∧
      t = u.countTimers) := by
  rcases step_cases h with ⟨hsome, -⟩ | ⟨-, x, hw, rfl⟩ | ⟨-, -, -, rfl⟩ |
    ⟨-, -, op, bad, -, -, rfl⟩ | ⟨-, hw, op, i, u, ho, hd, he, rfl⟩
  · simp [hf] at hsome
  · exact .inl ⟨x, hw, rfl⟩
  · cases ht
  · cases ht
  · obtain ⟨rfl, -⟩ := encode_of_decode hd
    rcases exec_outcome he with hc | ⟨kind, extra, -, rfl⟩
    · have hu : u.fault = none := by simpa [hf] using hc.fault_eq
      exact .inr ⟨hw, i, u, ho, hd, he, hc, by simp [hu]⟩
    · simp at ht

/-- Settles O10: an instruction that completes leaves a timer as it was, unless it is the one that
writes it, and then step 4 counts it down. -/
theorem timersCountDownOncePerTick : Obligations.TimersCountDownOncePerTick := by
  intro s t hf h ht
  rcases step_completes_cases hf h ht with ⟨x, hw, rfl⟩ | ⟨hw, i, u, ho, hd, he, hc, rfl⟩
  · have htimers := toNat_timers_waitingTick s.beginTick x
    simpa [hw] using htimers
  · simp only [hw, ho, countTimers_dt, countTimers_st, toNat_countDown, Option.some.injEq,
      wordXKK_fifteen_eq_encode_ldDtVx, wordXKK_fifteen_eq_encode_ldStVx]
    refine ⟨fun x _ hop => ?_, fun hother => ?_, fun x _ hop => ?_, fun hother => ?_⟩
    · obtain rfl := eq_of_decode_encode hd hop rfl
      cases he
      simp
    · have hne : ∀ x, i ≠ .ldDtVx x := fun x hi => hother.resolve_left (by simp) x (hi ▸ rfl)
      have hdt : u.dt = s.beginTick.advance.dt := hc.frame .dt nofun (by simpa [MayWrite] using hne)
      simp [hdt]
    · obtain rfl := eq_of_decode_encode hd hop rfl
      cases he
      simp
    · have hne : ∀ x, i ≠ .ldStVx x := fun x hi => hother.resolve_left (by simp) x (hi ▸ rfl)
      have hst : u.st = s.beginTick.advance.st := hc.frame .st nofun (by simpa [MayWrite] using hne)
      simp [hst]

end Sys2Proof.Machine
end

section
/-! Memory transfers through I (44_index_memory.md R154 to R158). Each either fits below 4096 and
completes, or raises MemoryBounds at max(I, 4096) (60_exceptions.md R215). -/

namespace Sys2Proof.Machine

/-- An access that does not fit raises MemoryBounds and changes nothing else. -/
theorem checkRange_raises {s : State} {len : Nat} (hlen : 0 < len) (h : 4096 < s.i.toNat + len)
    (op : Word) (done : State) : ∃ t, checkRange op s.i.toNat len s done = .next t ∧
      RaisedFrom s t .memoryBounds op (some (max s.i.toNat 4096)) :=
  ⟨_, checkRange_of_exceeds hlen h op s done, raisedFrom_takeFault s _ _ _⟩

/-! ### Stores -/

theorem keeps_storeBytes_unless {s : State} {bs : List Byte} (hwf : Memory.wf s.mem = true)
    (hfits : s.i.toNat + bs.length ≤ 4096) :
    KeepsUnless (fun p => ∃ k < bs.length, p = .byte (s.i.toNat + k)) s
      (s.storeBytes s.i.toNat bs) :=
  fun _ hp => keeps_storeBytes hfits (fun _ _ => hwf) fun k hk e => hp ⟨k, hk, e⟩

/-- The k-th stored byte reads back at I + k. -/
theorem byteAt_storeBytes {s : State} {bs : List Byte} (hwf : Memory.wf s.mem = true)
    (hfits : s.i.toNat + bs.length ≤ 4096) {k : Nat} (hk : k < bs.length) :
    Memory.byteAt (s.storeBytes s.i.toNat bs).mem (s.i.toNat + k) = bs[k] := by
  rw [storeBytes_mem, Memory.byteAt_putBytes hwf hfits, if_pos (Nat.le_add_right ..),
    Nat.add_sub_cancel_left, List.getD_eq_getElem _ _ hk]

theorem exec_ldBcd_of_fits {s : State} (x : Reg) (h : s.i.toNat + 2 < 4096) :
    exec (.ldBcd x) s = .next (s.storeBytes s.i.toNat (bcdDigits (s.readV x))) :=
  checkRange_of_fits (.inr h) _ _ _

theorem exec_storeRegs_of_fits {s : State} {x : Reg} (h : s.i.toNat + x.val < 4096) :
    exec (.storeRegs x) s = .next (s.storeBytes s.i.toNat (s.firstV x)) :=
  checkRange_of_fits (.inr h) _ _ _

theorem exec_loadRegs_of_fits {s : State} {x : Reg} (h : s.i.toNat + x.val < 4096) :
    exec (.loadRegs x) s = .next (s.writeFirstV (Memory.bytesFrom s.mem s.i.toNat (x.val + 1))) :=
  checkRange_of_fits (.inr h) _ _ _

/-- The digits at I, I + 1 and I + 2 after a fitting Fx33 (R154). -/
theorem byteAt_ldBcd {s : State} (x : Reg) (hwf : Memory.wf s.mem = true)
    (h : s.i.toNat + 2 < 4096) :
    let m := (s.storeBytes s.i.toNat (bcdDigits (s.readV x))).mem
    (Memory.byteAt m s.i.toNat).toNat = (s.readV x).toNat / 100 ∧
      (Memory.byteAt m (s.i.toNat + 1)).toNat = (s.readV x).toNat / 10 % 10 ∧
      (Memory.byteAt m (s.i.toNat + 2)).toNat = (s.readV x).toNat % 10 := by
  have hv := (s.readV x).isLt
  have hbyte {k : Nat} (hk : k < 3) := byteAt_storeBytes (bs := bcdDigits (s.readV x)) hwf h hk
  refine ⟨?_, ?_, ?_⟩
  · refine (congrArg BitVec.toNat (hbyte (k := 0) (by decide))).trans ?_
    simp [bcdDigits]
    omega
  · refine (congrArg BitVec.toNat (hbyte (k := 1) (by decide))).trans ?_
    simp [bcdDigits]
    omega
  · refine (congrArg BitVec.toNat (hbyte (k := 2) (by decide))).trans ?_
    simp [bcdDigits]
    omega

/-- Settles O33, by whether the three bytes fit. -/
theorem bcdStoresThreeDigits : Obligations.BcdStoresThreeDigits := by
  intro x s
  refine ⟨fun hwf hfits => ?_, fun hexceeds => ?_⟩
  · obtain ⟨hhundreds, htens, hones⟩ := byteAt_ldBcd x hwf hfits
    exact ⟨_, exec_ldBcd_of_fits x hfits, hhundreds, htens, hones,
      keeps_storeBytes_unless (bs := bcdDigits (s.readV x)) hwf hfits⟩
  · have hword : wordXKK 0xF x 0x33 = encode (.ldBcd x) := wordXKK_eq_encXKK 15 x 0x33
    rw [hword]
    exact checkRange_raises (by decide) (Nat.lt_succ_of_le hexceeds) _ _

theorem getElem_firstV (s : State) {x r : Reg} (h : r.val < (s.firstV x).length) :
    (s.firstV x)[r.val] = s.readV r := by
  simp [State.firstV, State.readV]

/-- V[r] is at I + r after a fitting Fx55 (R155). -/
theorem byteAt_storeRegs {s : State} {x r : Reg} (hwf : Memory.wf s.mem = true)
    (h : s.i.toNat + x.val < 4096) (hr : r ≤ x) :
    Memory.byteAt (s.storeBytes s.i.toNat (s.firstV x)).mem (s.i.toNat + r.val) = s.readV r := by
  have hlt : r.val < (s.firstV x).length := by simpa [Nat.lt_succ_iff] using hr
  have hfits : s.i.toNat + (s.firstV x).length ≤ 4096 := by rwa [length_firstV]
  rw [byteAt_storeBytes hwf hfits hlt, getElem_firstV]

/-- Settles O34, by whether the x + 1 bytes fit. -/
theorem storeRegistersWritesV0ToVx : Obligations.StoreRegistersWritesV0ToVx := by
  intro x s
  refine ⟨fun hwf hfits => ?_, fun hexceeds => ?_⟩
  · refine ⟨_, exec_storeRegs_of_fits hfits, fun r hr => byteAt_storeRegs hwf hfits hr, ?_⟩
    have hframe := keeps_storeBytes_unless (bs := s.firstV x) hwf (by rwa [length_firstV])
    simpa [Nat.lt_succ_iff] using hframe
  · have hword : wordXKK 0xF x 0x55 = encode (.storeRegs x) := wordXKK_eq_encXKK 15 x 0x55
    rw [hword]
    exact checkRange_raises (Nat.succ_pos _) (Nat.lt_succ_of_le hexceeds) _ _

/-! ### Loads -/

/-- V[r] after a fitting Fx65 (R156). -/
theorem readV_loadRegs (s : State) {x r : Reg} (hr : r ≤ x) :
    (s.writeFirstV (Memory.bytesFrom s.mem s.i.toNat (x.val + 1))).readV r =
      Memory.byteAt s.mem (s.i.toNat + r.val) := by
  rw [readV_writeFirstV, Memory.getD_bytesFrom, if_pos (Nat.lt_succ_of_le hr)]

/-- Settles O35, by whether the x + 1 bytes fit. -/
theorem loadRegistersReadsV0ToVx : Obligations.LoadRegistersReadsV0ToVx := by
  intro x s
  refine ⟨fun hfits => ?_, fun hexceeds => ?_⟩
  · refine ⟨_, exec_loadRegs_of_fits hfits, fun r hr => readV_loadRegs s hr, ?_⟩
    refine (keeps_writeFirstV s _).mono ?_
    rintro p ⟨r, hr, rfl⟩
    exact ⟨r, by simpa [Nat.lt_succ_iff] using hr, rfl⟩
  · have hword : wordXKK 0xF x 0x65 = encode (.loadRegs x) := wordXKK_eq_encXKK 15 x 0x65
    rw [hword]
    exact checkRange_raises (Nat.succ_pos _) (Nat.lt_succ_of_le hexceeds) _ _

/-! ### Round trips (R157, R158) -/

/-- Settles O36: the load reads at I + r what the store put there. -/
theorem storeThenLoadRestoresRegisters : Obligations.StoreThenLoadRestoresRegisters := by
  intro x s t u hwf hfits hstore hi hkeeps
  rw [exec_storeRegs_of_fits hfits] at hstore
  cases hstore
  have hui : u.i = s.i := hi
  refine ⟨_, exec_loadRegs_of_fits (by rwa [hui]), fun r hr => ?_⟩
  calc (u.writeFirstV (Memory.bytesFrom u.mem u.i.toNat (x.val + 1))).readV r
      _ = Memory.byteAt u.mem (s.i.toNat + r.val) := by rw [readV_loadRegs u hr, hui]
      _ = Memory.byteAt (s.storeBytes s.i.toNat (s.firstV x)).mem (s.i.toNat + r.val) :=
        hkeeps r.val hr
      _ = s.readV r := byteAt_storeRegs hwf hfits hr

theorem runInOrder_cons {i : Instr} {s t : State} (h : exec i s.advance = .next t)
    (is : List Instr) : runInOrder (i :: is) s = runInOrder is t := by
  simp only [runInOrder, h]

/-- Settles O37: F265 loads the three digits that Fx33 stored. -/
theorem bcdThenLoadSpellsTheValue : Obligations.BcdThenLoadSpellsTheValue := by
  intro x s hwf hfits
  have hstore := exec_ldBcd_of_fits (s := s.advance) x hfits
  have hload := exec_loadRegs_of_fits
    (s := (s.advance.storeBytes s.advance.i.toNat (bcdDigits (s.advance.readV x))).advance)
    (x := 2) hfits
  obtain ⟨hhundreds, htens, hones⟩ := byteAt_ldBcd (s := s.advance) x hwf hfits
  refine ⟨_, by rw [runInOrder_cons hstore, runInOrder_cons hload, runInOrder], ?_⟩
  rw [readV_loadRegs _ (r := 0) (by decide), readV_loadRegs _ (r := 1) (by decide),
    readV_loadRegs _ (r := 2) (by decide)]
  refine ⟨?_, ?_, ?_⟩
  · refine (congrArg₂ (· + ·) (congrArg₂ (100 * · + 10 * ·) hhundreds htens) hones).trans ?_
    simp
    omega
  · exact lt_of_eq_of_lt htens (Nat.mod_lt _ (by decide))
  · exact lt_of_eq_of_lt hones (Nat.mod_lt _ (by decide))

/-! ### Self-modifying code (20_memory.md R48) -/

/-- Settles O38: the next fetch reads at I and I + 1, where the store has just put V0 and V1. -/
theorem storeToTheNextInstructionIsFetched : Obligations.StoreToTheNextInstructionIsFetched := by
  intro s x hwf hf hw ho hx hi hfits
  have hd : decode (wordXKK 0xF x 0x55) = .instr (.storeRegs x) := decode_wordXKK 15 rfl rfl
  have hexec := exec_storeRegs_of_fits (s := s.beginTick.advance) (x := x) (by simpa using hfits)
  have hstep := step_of_completes hf hw ho hd hexec (by simpa using hf)
  have hbyte {r : Reg} (hr : r ≤ x) := byteAt_storeRegs (s := s.beginTick.advance) (x := x)
    (by simpa using hwf) (by simpa using hfits) hr
  have hpc : s.beginTick.advance.pc.toNat = s.beginTick.advance.i.toNat := by
    simp
    omega
  refine ⟨_, _, hstep, by simp, fetch_of_lt ?_, ?_⟩
  · simp
    omega
  · rw [toNat_opcodeOfBytes, countTimers_pc, storeBytes_pc, hpc]
    have h0 := hbyte (r := 0) (Fin.zero_le x)
    have h1 := hbyte (r := 1) hx
    refine (congrArg₂ (256 * BitVec.toNat · + BitVec.toNat ·) h0 h1).trans ?_
    simp

end Sys2Proof.Machine
end

section
/-! The display (46_display.md): CLS, what DRW toggles, the double draw and the pixel count. -/

namespace Sys2Proof.Machine

/-! ### CLS (R191) -/

/-- Settles O41: the framebuffer is overwritten by a blank one. -/
theorem clsClearsEveryPixel : Obligations.ClsClearsEveryPixel :=
  ⟨decode_encode (i := .cls) rfl, fun s => ⟨_, rfl, pixel_blank, rfl, keeps_writeFb s _⟩⟩

/-! ### One draw (R192 to R194) -/

/-- The state a fitting draw leaves. -/
def State.afterDraw (s : State) (x y : Reg) (n : Nibble) : State :=
  (s.writeFb (s.drawn x y n).fb).writeFlag (s.drawn x y n).hit

theorem exec_drw_of_fits {s : State} {n : Nibble} (h : n.val = 0 ∨ s.i.toNat + n.val ≤ 4096)
    (x y : Reg) : exec (.drw x y n) s = .next (s.afterDraw x y n) :=
  checkRange_of_fits h _ _ _

section draw
variable (s : State) (x y : Reg) (n : Nibble)

theorem pixel_afterDraw_of_covers {r : Fin 32} {c : Fin 64} (h : SpriteCovers s x y n r c) :
    pixel (s.afterDraw x y n).fb r c = !pixel s.fb r c := by
  classical
  exact (pixel_drawn s x y n r c).trans (by simp [h])

theorem pixel_afterDraw_of_not_covers {r : Fin 32} {c : Fin 64} (h : ¬ SpriteCovers s x y n r c) :
    pixel (s.afterDraw x y n).fb r c = pixel s.fb r c := by
  classical
  exact (pixel_drawn s x y n r c).trans (by simp [h])

theorem readV_afterDraw_flagReg : (s.afterDraw x y n).readV flagReg = flagByte (s.drawn x y n).hit :=
  readV_writeV_same _ _ _

/-- VF after a draw: 1 when the sprite covered a pixel that was on (R194). -/
theorem readV_afterDraw_eq_one_iff : (s.afterDraw x y n).readV flagReg = 1 ↔
    ∃ r c, SpriteCovers s x y n r c ∧ pixel s.fb r c = true := by
  rw [readV_afterDraw_flagReg, ← hit_drawn]
  cases (s.drawn x y n).hit <;> decide

theorem readV_afterDraw_eq_zero_or_one :
    (s.afterDraw x y n).readV flagReg = 0 ∨ (s.afterDraw x y n).readV flagReg = 1 :=
  readV_afterDraw_flagReg s x y n ▸ flagByte_eq_zero_or_one _

theorem keeps_afterDraw :
    KeepsUnless (fun p => p = .reg 15 ∨ p = .fbWritten ∨ ∃ r c, p = .pixel r c) s
      (s.afterDraw x y n) :=
  ((keeps_writeFb s _).mono fun _ => .inr).trans ((keeps_writeV _ flagReg _).unless (by simp))

end draw

/-- Settles O42, by whether the sprite's rows fit below 4096. -/
theorem drawXorsTheSprite : Obligations.DrawXorsTheSprite := by
  intro x y n s
  refine ⟨fun hfits => ?_, fun hpos hexceeds => ?_⟩
  · have hone := readV_afterDraw_eq_one_iff s x y n
    have hzero := readV_afterDraw_eq_zero_or_one s x y n
    exact ⟨_, exec_drw_of_fits hfits x y, fun _ _ => pixel_afterDraw_of_covers s x y n,
      fun _ _ => pixel_afterDraw_of_not_covers s x y n, hone.2,
      fun hno => hzero.resolve_right fun h => hno (hone.1 h), rfl, keeps_afterDraw s x y n⟩
  · have hword : wordXYN 0xD x y n = encode (.drw x y n) := wordXYN_eq_encXYN 13 x y n
    rw [hword]
    exact checkRange_raises hpos hexceeds _ _

/-! ### Two draws (R195) -/

/-- The pixels a draw covers depend on Vx, Vy, I and the sprite's bytes. -/
theorem spriteCovers_congr {s u : State} {x y : Reg} {n : Nibble} (hx : u.readV x = s.readV x)
    (hy : u.readV y = s.readV y) (hi : u.i = s.i)
    (hbytes : ∀ row < n.val, Keeps s u (.byte (s.i.toNat + row))) (r : Fin 32) (c : Fin 64) :
    SpriteCovers u x y n r c ↔ SpriteCovers s x y n r c := by
  unfold SpriteCovers
  refine exists_congr fun row => and_congr_right fun hrow => ?_
  have hbyte : Memory.byteAt u.mem (u.i.toNat + row) = Memory.byteAt s.mem (s.i.toNat + row) := by
    rw [hi]
    exact hbytes row hrow
  rw [hx, hy, hbyte]

/-- A sprite covers some pixel exactly when one of its bytes has a set bit. -/
theorem exists_spriteCovers_iff (s : State) (x y : Reg) (n : Nibble) :
    (∃ r c, SpriteCovers s x y n r c) ↔
      ∃ row < n.val, Memory.byteAt s.mem (s.i.toNat + row) ≠ 0 := by
  constructor
  · rintro ⟨r, c, row, hrow, col, -, -, -, hbit⟩
    refine ⟨row, hrow, fun hzero => ?_⟩
    simp [hzero] at hbit
  · rintro ⟨row, hrow, hne⟩
    obtain ⟨k, hk, hbit⟩ : ∃ k < 8,
        (Memory.byteAt s.mem (s.i.toNat + row)).getLsbD k = true := by
      by_contra hnone
      push Not at hnone
      exact hne (BitVec.eq_of_getLsbD_eq fun k hk => by simpa using hnone k hk)
    refine ⟨rowOf ((s.readV y).toNat + row), colOf ((s.readV x).toNat + (7 - k)), row, hrow, 7 - k,
      by omega, rfl, rfl, ?_⟩
    rwa [show 7 - (7 - k) = k by omega]

/-- Settles O43: the second draw covers the same pixels, which the first has toggled. -/
theorem drawingTwiceRestoresTheScreen : Obligations.DrawingTwiceRestoresTheScreen := by
  intro x y n s t u hfits hfirst hx hy hi hpixels hbytes
  rw [exec_drw_of_fits hfits] at hfirst
  cases hfirst
  have hcovers := spriteCovers_congr hx hy hi hbytes
  have hcollides : (u.afterDraw x y n).readV 15 = 1 ↔
      ∃ r c, SpriteCovers s x y n r c ∧ pixel s.fb r c = false := by
    rw [readV_afterDraw_eq_one_iff]
    refine exists_congr fun r => exists_congr fun c => ?_
    rw [hcovers r c]
    refine and_congr_right fun h => ?_
    rw [hpixels r c, pixel_afterDraw_of_covers s x y n h, Bool.not_eq_true']
  refine ⟨_, exec_drw_of_fits (by rwa [hi]) x y, fun r c => ?_, hcollides,
    readV_afterDraw_eq_zero_or_one u x y n, fun hoff => ?_⟩
  · by_cases h : SpriteCovers s x y n r c
    · rw [pixel_afterDraw_of_covers u x y n ((hcovers r c).2 h), hpixels r c,
        pixel_afterDraw_of_covers s x y n h, Bool.not_not]
    · rw [pixel_afterDraw_of_not_covers u x y n (mt (hcovers r c).1 h), hpixels r c,
        pixel_afterDraw_of_not_covers s x y n h]
  · rw [hcollides, ← exists_spriteCovers_iff s x y n]
    simp [hoff]

/-- The reset state with the one-bit sprite 0x80 at I = 0x300 and the pixel it covers on. -/
def litSprite : State :=
  { State.reset with
    i := 0x300, mem := [(0x300, 0x80)], fb := setPixel Framebuffer.blank 0 0 true }

/-- Refutes O44: on `litSprite` the first draw turns the one covered pixel off, so the second meets no
pixel that is on and leaves VF = 0. -/
theorem not_secondDrawOfASetBitAlwaysCollides :
    ¬ Obligations.SecondDrawOfASetBitAlwaysCollides := by
  intro h
  have hfits : litSprite.i.toNat + (1 : Nibble).val ≤ 4096 := by decide
  have hfirst := exec_drw_of_fits (s := litSprite) (.inr hfits) 0 0
  have hsecond := exec_drw_of_fits (s := litSprite.afterDraw 0 0 1) (.inr hfits) 0 0
  have hset : ∃ row < (1 : Nibble).val, Memory.byteAt litSprite.mem (litSprite.i.toNat + row) ≠ 0 :=
    ⟨0, by decide, by decide⟩
  have hone := h 0 0 1 litSprite (litSprite.afterDraw 0 0 1) (litSprite.afterDraw 0 0 1) _ hfits
    hfirst (by decide) (by decide) rfl (fun _ _ => rfl) (fun _ _ => rfl) hset hsecond
  have hzero : ((litSprite.afterDraw 0 0 1).afterDraw 0 0 1).readV 15 = 0 := by decide
  exact absurd (hzero.symm.trans hone) (by decide)

/-! ### The pixel count (R196) -/

/-- A draw changes exactly the pixels its sprite covers. -/
theorem pixel_afterDraw_ne_iff (s : State) (x y : Reg) (n : Nibble) (r : Fin 32) (c : Fin 64) :
    pixel (s.afterDraw x y n).fb r c ≠ pixel s.fb r c ↔ SpriteCovers s x y n r c := by
  by_cases h : SpriteCovers s x y n r c
  · simp [pixel_afterDraw_of_covers s x y n h, h]
  · simp [pixel_afterDraw_of_not_covers s x y n h, h]

/-- The pixel on which bit `q.2` of sprite row `q.1` lands. -/
def targetOf (s : State) (x y : Reg) (n : Nibble) (q : Fin n.val × Fin 8) : Fin 32 × Fin 64 :=
  (rowOf ((s.readV y).toNat + q.1.val), colOf ((s.readV x).toNat + (7 - q.2.val)))

theorem eq_of_rowOf_eq {y i j : Nat} (hi : i < 32) (hj : j < 32) (h : rowOf (y + i) = rowOf (y + j)) :
    i = j := by
  rcases Nat.lt_trichotomy i j with hij | hij | hji
  · exact absurd h (rowOf_ne hij (by omega))
  · exact hij
  · exact absurd h.symm (rowOf_ne hji (by omega))

theorem eq_of_colOf_eq {x i j : Nat} (hi : i < 64) (hj : j < 64) (h : colOf (x + i) = colOf (x + j)) :
    i = j := by
  rcases Nat.lt_trichotomy i j with hij | hij | hji
  · exact absurd h (colOf_ne hij (by omega))
  · exact hij
  · exact absurd h.symm (colOf_ne hji (by omega))

/-- No two bits of one sprite meet in a pixel: a sprite has fewer than 32 rows and 64 columns. -/
theorem targetOf_injective (s : State) (x y : Reg) (n : Nibble) :
    Function.Injective (targetOf s x y n) := by
  rintro ⟨row, bit⟩ ⟨row', bit'⟩ h
  obtain ⟨hrow, hcol⟩ := Prod.mk.inj h
  have hrow := eq_of_rowOf_eq (by omega) (by omega) hrow
  have hcol := eq_of_colOf_eq (by omega) (by omega) hcol
  exact Prod.ext (Fin.ext hrow) (Fin.ext (by omega))

/-- The covered pixels are the targets of the set bits. -/
theorem spriteCovers_iff_exists_target (s : State) (x y : Reg) (n : Nibble) (p : Fin 32 × Fin 64) :
    SpriteCovers s x y n p.1 p.2 ↔ ∃ q : Fin n.val × Fin 8,
      (Memory.byteAt s.mem (s.i.toNat + q.1.val)).getLsbD q.2.val = true ∧ targetOf s x y n q = p := by
  constructor
  · rintro ⟨row, hrow, col, hcol, hr, hc, hbit⟩
    refine ⟨(⟨row, hrow⟩, ⟨7 - col, by omega⟩), hbit, Prod.ext (Fin.ext hr.symm) (Fin.ext ?_)⟩
    have hback : 7 - (7 - col) = col := by omega
    simpa [targetOf, hback, colOf, Fin.ofNat] using hc.symm
  · rintro ⟨⟨row, bit⟩, hbit, rfl⟩
    refine ⟨row.val, row.isLt, 7 - bit.val, by omega, rfl, rfl, ?_⟩
    rwa [show 7 - (7 - bit.val) = bit.val by omega]

/-- Settles O45: the changed pixels are the image of the set bits under an injective map. -/
theorem drawTogglesAsManyPixelsAsSetBits : Obligations.DrawTogglesAsManyPixelsAsSetBits := by
  intro x y n s t hfits h
  rw [exec_drw_of_fits hfits] at h
  cases h
  rw [← Finset.card_image_of_injective _ (targetOf_injective s x y n)]
  congr 1
  ext p
  simp only [Finset.mem_image, Finset.mem_filter, Finset.mem_univ, true_and]
  rw [pixel_afterDraw_ne_iff, spriteCovers_iff_exists_target]

end Sys2Proof.Machine
end

section
/-! Stack discipline (41_control_flow.md R86): nested calls, then their returns. -/

namespace Sys2Proof.Machine

/-- What a run of calls and returns may change: PC, SP and the stack entries in use. -/
def StackParts (lo hi : Nat) (p : Part) : Prop :=
  p = .pc ∨ p = .sp ∨ ∃ j : Fin 16, p = .slot j ∧ lo ≤ j.val ∧ j.val < hi

/-- `t` is `s` after the calls to `targets`: on top of the old entries lie the return addresses, each two
above its call's own address. -/
structure Called (targets : List Addr12) (s t : State) : Prop where
  sp : t.sp.toNat = s.sp.toNat + targets.length
  slot : ∀ j < targets.length,
    ∃ a, (s.pc :: targets.map addressOf)[j]? = some a ∧ t.stack[s.sp.toNat + j]? = some (a + 2)
  frame : KeepsUnless (StackParts s.sp.toNat (s.sp.toNat + targets.length)) s t

theorem keeps_advance_unless {changed : Part → Prop} (hpc : changed .pc) (s : State) :
    KeepsUnless changed s s.advance :=
  (keeps_advance s).unless (by simpa using hpc)

/-- One call, its advance of PC included, pushes the address after itself. -/
theorem called_one {s : State} (h : s.sp.toNat < 16) (nnn : Addr12) :
    Called [nnn] s (s.advance.pushPc.writePc (addressOf nnn)) where
  sp := toNat_sp_add_one (s := s.advance) h
  slot j hj := by
    obtain rfl : j = 0 := by simpa using hj
    exact ⟨s.pc, rfl, by simp [h]⟩
  frame := by
    refine (keeps_advance_unless (.inl rfl) s).trans
      ((keeps_pushPc_writePc s.advance (addressOf nnn)).mono ?_)
    rintro p (rfl | rfl | ⟨k, rfl, hk⟩)
    · exact .inl rfl
    · exact .inr (.inl rfl)
    · exact .inr (.inr ⟨k, rfl, hk.ge, by simp [hk]⟩)

/-- A call, then the calls of the called code. -/
theorem Called.cons {nnn : Addr12} {targets : List Addr12} {s t u : State}
    (h : Called [nnn] s t) (hpc : t.pc = addressOf nnn) (h' : Called targets t u) :
    Called (nnn :: targets) s u where
  sp := by
    rw [h'.sp, h.sp]
    simp
    omega
  slot j hj := by
    cases j with
    | zero =>
      obtain ⟨a, ha, hslot⟩ := h.slot 0 (by simp)
      obtain ⟨hlt, -⟩ := Vector.getElem?_eq_some_iff.1 hslot
      have hkeep : u.stack[s.sp.toNat + 0] = t.stack[s.sp.toNat + 0] :=
        h'.frame (.slot ⟨s.sp.toNat + 0, hlt⟩) (by simp [StackParts, h.sp])
      refine ⟨a, ha, ?_⟩
      rw [← hslot, Vector.getElem?_eq_getElem hlt, Vector.getElem?_eq_getElem hlt, hkeep]
    | succ j =>
      have hsp : t.sp.toNat + j = s.sp.toNat + (j + 1) := by
        rw [h.sp, List.length_singleton]
        omega
      obtain ⟨a, ha, hslot⟩ := h'.slot j (by simpa using hj)
      exact ⟨a, by simpa [hpc] using ha, hsp ▸ hslot⟩
  frame := by
    have hsp := h.sp
    refine (h.frame.mono ?_).trans (h'.frame.mono ?_)
    · rintro p (rfl | rfl | ⟨j, rfl, hlo, hhi⟩)
      · exact .inl rfl
      · exact .inr (.inl rfl)
      · exact .inr (.inr ⟨j, rfl, hlo, by simp at hhi ⊢; omega⟩)
    · rintro p (rfl | rfl | ⟨j, rfl, hlo, hhi⟩)
      · exact .inl rfl
      · exact .inr (.inl rfl)
      · exact .inr (.inr ⟨j, rfl, by omega, by simp at hsp ⊢; omega⟩)

theorem runInOrder_calls {targets : List Addr12} {s : State}
    (h : s.sp.toNat + targets.length ≤ 16) :
    ∃ t, runInOrder (targets.map .call) s = .next t ∧ Called targets s t := by
  induction targets generalizing s with
  | nil => exact ⟨s, rfl, rfl, fun j hj => absurd hj (Nat.not_lt_zero j), KeepsUnless.refl _ s⟩
  | cons nnn rest ih =>
    simp only [List.length_cons] at h
    have hlt : s.sp.toNat < 16 := by omega
    have hcall := exec_call_of_sp_lt (s := s.advance) hlt nnn
    have hone := called_one hlt nnn
    obtain ⟨u, hrun, hrest⟩ := ih (s := s.advance.pushPc.writePc (addressOf nnn)) (by
      have hsp := hone.sp
      simp only [List.length_singleton] at hsp
      omega)
    exact ⟨u, by rw [List.map_cons, runInOrder_cons hcall, hrun], hone.cons rfl hrest⟩

/-- `t` is `s` after k returns: PC is the entry that the last of them read. -/
structure Returned (k : Nat) (s t : State) : Prop where
  sp : t.sp.toNat = s.sp.toNat - k
  pc : 1 ≤ k → s.stack[s.sp.toNat - k]? = some t.pc
  frame : KeepsAllBut [.pc, .sp] s t

/-- One more return. -/
theorem Returned.succ {k : Nat} {s t : State} (h : Returned k s t) (hk : k + 1 ≤ s.sp.toNat)
    (hsp : s.sp.toNat ≤ 16) :
    ∃ u, exec .ret t.advance = .next u ∧ Returned (k + 1) s u := by
  have htop : t.sp.toNat - 1 = s.sp.toNat - (k + 1) := by
    rw [h.sp]
    omega
  have hpos : t.advance.sp.toNat ≠ 0 := by
    rw [advance_sp, h.sp]
    omega
  have hlt : t.advance.sp.toNat - 1 < 16 := by
    rw [advance_sp, htop]
    omega
  refine ⟨_, exec_ret_of_sp_pos hpos hlt, ?_, fun _ => ?_, ?_⟩
  · rw [popPc_sp, toNat_sp_sub_one hpos, advance_sp, htop]
  · have hkeep : t.stack[t.sp.toNat - 1] = s.stack[t.sp.toNat - 1] :=
      h.frame (.slot ⟨t.sp.toNat - 1, hlt⟩) (by simp)
    rw [← htop]
    exact (Vector.getElem?_eq_getElem hlt).trans (congrArg some hkeep.symm)
  · have hadvance := (keeps_advance t).mono (l' := [.pc, .sp]) (by simp)
    exact (h.frame.trans hadvance).trans (keeps_popPc t.advance _)

theorem runInOrder_rets {k : Nat} {s : State} (hk : k ≤ s.sp.toNat) (hsp : s.sp.toNat ≤ 16) :
    ∃ t, runInOrder (List.replicate k .ret) s = .next t ∧ Returned k s t := by
  induction k with
  | zero => exact ⟨s, rfl, rfl, fun h => absurd h (by decide), (keepsAllBut_refl s).mono (by simp)⟩
  | succ k ih =>
    obtain ⟨t, hrun, ht⟩ := ih (by omega)
    obtain ⟨u, hret, hu⟩ := ht.succ hk hsp
    refine ⟨u, ?_, hu⟩
    rw [List.replicate_succ', runInOrder_append hrun, runInOrder_cons hret, runInOrder]

/-- Settles O23: the k-th return reads the entry that call number N - k pushed. -/
theorem nestedCallsAndReturnsRestoreSp : Obligations.NestedCallsAndReturnsRestoreSp := by
  intro targets s hfits k hk hkN
  obtain ⟨t, hcalls, ht⟩ := runInOrder_calls hfits
  have htsp := ht.sp
  obtain ⟨u, hrets, hu⟩ := runInOrder_rets (k := k) (s := t) (by omega) (by omega)
  obtain ⟨a, ha, hslot⟩ := ht.slot (targets.length - k) (by omega)
  have hentry : t.sp.toNat - k = s.sp.toNat + (targets.length - k) := by omega
  have hpc : u.pc = a + 2 := by
    have hread := hu.pc hk
    rw [hentry, hslot] at hread
    exact (Option.some.inj hread).symm
  have husp : u.sp.toNat = s.sp.toNat + (targets.length - k) := hu.sp.trans hentry
  refine ⟨u, a, by rw [runInOrder_append hcalls, hrets], ha, hpc, husp, fun hall => ?_, ?_⟩
  · subst hall
    rw [Nat.sub_self] at ha husp
    cases ha
    exact ⟨hpc, BitVec.eq_of_toNat_eq husp⟩
  · exact ht.frame.trans (hu.frame.unless (by simp [StackParts]))

end Sys2Proof.Machine
end

section
/-! Placing a word where the next tick fetches (log 9). -/

namespace Sys2Proof.Machine

/-- PC where the word is placed: unchanged where it can fetch, else the entry point. -/
def fetchablePc (s : State) : Word :=
  if s.pc.toNat + 1 < Config.memSize then s.pc else BitVec.ofNat 16 Config.programBase

theorem fetchablePc_add_one_lt (s : State) : (fetchablePc s).toNat + 1 < 4096 := by
  unfold fetchablePc
  split
  · assumption
  · decide

theorem fetchablePc_of_lt {s : State} (h : s.pc.toNat + 1 < 4096) : fetchablePc s = s.pc := if_pos h

theorem tableWord_sixteen {w : Nat} (h : w < 65536) : tableWord 16 w = BitVec.ofNat 16 w := by
  have hmod : w % 2 ^ 16 = w := Nat.mod_eq_of_lt h
  rw [tableWord, hmod]

/-- The word's two bytes form it again, so the table word decodes as the word does. -/
theorem decode_of_decodeTableWord {nbits w : Nat} {i : Instr} (h : decodeTableWord nbits w = some i) :
    decode (tableWord nbits w) = .instr i := by
  cases hd : decode (tableWord nbits w) with
  | instr j =>
    simp [decodeTableWord, decodeBytes, hd] at h
    rw [h]
  | invalid bad => simp [decodeTableWord, decodeBytes, hd] at h

section place
variable {s : State} (nbits w : Nat)

/-- Placing the word is a store of its two bytes at `fetchablePc`. -/
theorem byteAt_withFetchWord (hwf : Memory.wf s.mem = true) (a : Nat) :
    Memory.byteAt (s.withFetchWord nbits w).mem a =
      if (fetchablePc s).toNat ≤ a then
        [firstByte (tableWord nbits w), secondByte (tableWord nbits w)].getD
          (a - (fetchablePc s).toNat) (Memory.byteAt s.mem a)
      else Memory.byteAt s.mem a :=
  Memory.byteAt_putBytes hwf (fetchablePc_add_one_lt s) a

/-- The next fetch reads the placed word. -/
theorem fetch_withFetchWord (hwf : Memory.wf s.mem = true) :
    (s.withFetchWord nbits w).fetch = some (tableWord nbits w) := by
  have hpc : (s.withFetchWord nbits w).pc = fetchablePc s := rfl
  rw [fetch_of_lt (hpc ▸ fetchablePc_add_one_lt s), hpc, byteAt_withFetchWord nbits w hwf,
    byteAt_withFetchWord nbits w hwf]
  simp

/-- What placing a word changes. -/
theorem keeps_withFetchWord (hwf : Memory.wf s.mem = true) :
    KeepsAllBut [.pc, .fault, .wait, .byte (fetchablePc s).toNat, .byte ((fetchablePc s).toNat + 1)] s
      (s.withFetchWord nbits w) := by
  intro p hp
  cases p with
  | pc | fault | wait => simp at hp
  | byte a =>
    rw [keeps_byte, byteAt_withFetchWord nbits w hwf]
    split
    · simp at hp
      exact List.getD_eq_default _ _ (by simp; omega)
    · rfl
  | _ => rfl

end place

/-- Settles O54: the placed word is fetched, FAULT and WAIT are clear, and so it executes. -/
theorem placedWordRunsNext : Obligations.PlacedWordRunsNext := by
  intro s w i hwf hw hd u
  have hd := decode_of_decodeTableWord hd
  refine ⟨by rwa [← tableWord_sixteen hw], ?_, fetchablePc_of_lt, keeps_withFetchWord 16 w hwf⟩
  exact step_of_instr rfl rfl (fetch_withFetchWord 16 w hwf) hd

end Sys2Proof.Machine
end
